-- ==== Sys2Proof/Word.lean ====
section
/-! DEFINITION. Word.lean: the words of the block. Command words are 16 bits and playfield rows 8 bits
(R10, R12); a pin level is a bit (R24); a stage of the external chain is a bit or ⊥ (R13). -/

namespace Sys2Proof

/-- A 16-bit command word (R10, R56). Bit 0 is the least significant bit (R11). -/
abbrev Word := BitVec 16

/-- An 8-bit value: a playfield row, a byte to shift, a row-select byte (R8, R12). -/
abbrev Byte := BitVec 8

/-- A bit of a line or of a byte: `true` is 1 and `false` is 0 (R12). -/
abbrev Bit := Bool

/-- One stage of the external chain, `Bit?` in the spec: `none` is ⊥, "unknown: any value the hardware
might hold" (R13). -/
abbrev Stage := Option Bit

/-- The 16 stages of the chain, index k being stage k; stage 0 is the one nearest DATA, stages 0 to 7 are
the near register and 8 to 15 the far one (R27, R28). -/
abbrev Chain := Vector Stage 16

end Sys2Proof
end

