-- ==== Sys2Proof/Syntax.lean ====
section
/-! DEFINITION. Syntax.lean: the commands, one constructor per row of the opcode table (R62, R68), the
three output lines and the micro-ops a command expands into (R15, R69). -/

namespace Sys2Proof

/-- The three output lines (R24, R73). -/
inductive Line where
  | data
  | clock
  | latch
  deriving DecidableEq, Repr

/-- The command set (R62), with the pseudo-instruction CLEAR_DATA (R68) last. The row index of RENDER_ROW is
an unbounded number here, the case R123 speaks of: `Instr.wellFormed` bounds it, and a READ_ROW of a larger
index raises ROW_RANGE. -/
inductive Instr where
  /-- SET_DATA v: drive DATA to v (R83). -/
  | setData (v : Bit)
  /-- CLK_LOW: drive CLOCK to 0 (R82). -/
  | clkLow
  /-- CLK_HIGH: drive CLOCK to 1 (R84). -/
  | clkHigh
  /-- LATCH_LOW: drive LATCH to 0 (R87). -/
  | latchLow
  /-- LATCH_HIGH: drive LATCH to 1 (R88). -/
  | latchHigh
  /-- WAIT_D: one delay unit (R89). -/
  | waitD
  /-- SHIFT_BYTE b: shift the eight bits of b out, bit 0 first (R97). -/
  | shiftByte (b : Byte)
  /-- RENDER_ROW j: send and latch playfield row j (R111). -/
  | renderRow (j : Nat)
  /-- RENDER_FRAME: the eight rows in order (R114). -/
  | renderFrame
  /-- CLEAR_DATA: another name of the word of SET_DATA 0 (R68, R85). -/
  | clearData
  deriving DecidableEq, Repr

/-- The block's internal steps (R15, R69). They have no encoding. -/
inductive MicroOp where
  /-- PIN(L, v): drive line L to level v (R79). -/
  | pin (l : Line) (v : Bit)
  /-- WAIT: one delay unit (R86). -/
  | wait
  /-- READ_ROW(j): read playfield row j into `colbyte` (R109). The index is unbounded, as in `Instr` (R123). -/
  | readRow (j : Nat)
  /-- DATA_COL(i): drive DATA to bit i of `colbyte` (R110). -/
  | dataCol (i : Fin 8)
  deriving DecidableEq, Repr

/-- A byte source of `shiftSeq` (R93): a byte fixed by the command word, or the byte in `colbyte`. -/
inductive ByteSource where
  | const (b : Byte)
  | col
  deriving DecidableEq, Repr

end Sys2Proof
end

