-- ==== Sys2Proof/WellFormed.lean ====
section
/-! DEFINITION. WellFormed.lean: which commands the encoding admits. -/

namespace Sys2Proof

/-- A command whose operand fits its field. The only operand whose type is wider than its field is the row
index of RENDER_ROW, 0..7 (R60, R61, R111). -/
def Instr.wellFormed : Instr → Bool
  | .renderRow j => j ≤ 7
  | .setData _ => true
  | .clkLow => true
  | .clkHigh => true
  | .latchLow => true
  | .latchHigh => true
  | .waitD => true
  | .shiftByte _ => true
  | .renderFrame => true
  | .clearData => true

end Sys2Proof
end

