-- ==== Sys2Proof/Decode.lean ====
section
/-! DEFINITION. Decode.lean: the decoder, total on all 16-bit words (R65), the opcode map it reads (R62), and
the encoder, written from the same formats (R56 to R60, R68). -/

namespace Sys2Proof

/-- Why a word is reserved, the three grounds of R63. -/
inductive Reserved where
  /-- op = 0x0 or op in 0x6..0xF. -/
  | unassignedOpcode
  /-- A format-P word with line = 11. -/
  | reservedLine
  /-- A word of a defined op with a nonzero reserved-zero bit. -/
  | reservedBits
  deriving DecidableEq, Repr

/-- One row of the opcode map: a word belongs to it when `w &&& mask = pattern` (R62). -/
structure OpRow where
  pattern : Word
  mask : Word
  /-- The command, its operands taken straight from their fields (R61). -/
  build : Word → Instr

/-- The opcode field w[15:12] (R56). -/
def opField (w : Word) : BitVec 4 := w.extractLsb' 12 4

/-- The line field w[11:10] of format P (R57). -/
def lineField (w : Word) : BitVec 2 := w.extractLsb' 10 2

/-- The level field w[0] of format P (R57, R61). -/
def levelField (w : Word) : Bit := w.getLsbD 0

/-- The byte field w[7:0] of format B (R59, R61). -/
def byteField (w : Word) : Byte := w.extractLsb' 0 8

/-- The row field w[2:0] of format J (R60, R61). -/
def rowField (w : Word) : Nat := (w.extractLsb' 0 3).toNat

/-- The opcode map in the table's order, without the pseudo-instruction's row, which a decoder skips (R62). -/
def opcodeMap : List OpRow :=
  [ ⟨0x1000, 0xFFFE, fun w => .setData (levelField w)⟩,
    ⟨0x1400, 0xFFFF, fun _ => .clkLow⟩,
    ⟨0x1401, 0xFFFF, fun _ => .clkHigh⟩,
    ⟨0x1800, 0xFFFF, fun _ => .latchLow⟩,
    ⟨0x1801, 0xFFFF, fun _ => .latchHigh⟩,
    ⟨0x2000, 0xFFFF, fun _ => .waitD⟩,
    ⟨0x3000, 0xFF00, fun w => .shiftByte (byteField w)⟩,
    ⟨0x4000, 0xFFF8, fun w => .renderRow (rowField w)⟩,
    ⟨0x5000, 0xFFFF, fun _ => .renderFrame⟩ ]

/-- Whether a word matches a row (R62, R65). -/
def OpRow.accepts (r : OpRow) (w : Word) : Bool := w &&& r.mask = r.pattern

/-- The ground on which a word that matches no row is reserved (R63). -/
def reservedGround (w : Word) : Reserved :=
  if opField w = 0 ∨ 6 ≤ opField w then .unassignedOpcode
  else if opField w = 1 ∧ lineField w = 3 then .reservedLine
  else .reservedBits

/-- The command of a word: the first row it matches, or the ground on which it is INVALID (R65). -/
def decode (w : Word) : Except Reserved Instr :=
  match opcodeMap.find? (fun r => r.accepts w) with
  | some r => .ok (r.build w)
  | none => .error (reservedGround w)

/-- The code of a line in format P (R45, R57). -/
def lineCode : Line → BitVec 2
  | .data => 0
  | .clock => 1
  | .latch => 2

/-- Format P, `0001 line[1:0] 000000000 lv` (R57). -/
def formatP (l : Line) (v : Bit) : Word := 0x1#4 ++ lineCode l ++ 0#9 ++ BitVec.ofBool v

/-- Format N, `op 000000000000` (R58). -/
def formatN (op : BitVec 4) : Word := op ++ 0#12

/-- Format B, `0011 0000 b[7:0]` (R59). -/
def formatB (b : Byte) : Word := 0x3#4 ++ 0#4 ++ b

/-- Format J, `0100 000000000 j[2:0]` (R60). -/
def formatJ (j : Nat) : Word := 0x4#4 ++ 0#9 ++ BitVec.ofNat 3 j

/-- The word of a well-formed command (R57 to R60); CLEAR_DATA assembles to the word of SET_DATA 0 (R68). -/
def encode : Instr → Word
  | .setData v => formatP .data v
  | .clkLow => formatP .clock false
  | .clkHigh => formatP .clock true
  | .latchLow => formatP .latch false
  | .latchHigh => formatP .latch true
  | .waitD => formatN 0x2
  | .shiftByte b => formatB b
  | .renderRow j => formatJ j
  | .renderFrame => formatN 0x5
  | .clearData => formatP .data false

/-- The command whose word an instruction has: the pseudo-instruction CLEAR_DATA is SET_DATA 0 (R68), every
other command is itself. -/
def Instr.core : Instr → Instr
  | .clearData => .setData false
  | .setData v => .setData v
  | .clkLow => .clkLow
  | .clkHigh => .clkHigh
  | .latchLow => .latchLow
  | .latchHigh => .latchHigh
  | .waitD => .waitD
  | .shiftByte b => .shiftByte b
  | .renderRow j => .renderRow j
  | .renderFrame => .renderFrame

/-- What the decoder reads from an instruction whose bits are `w`, numbered as the opcode table numbers them.
Every command is one 16-bit word (R66), handed over as a value and never stored (R38), so the table's numbering
is the word itself, with zeros above its `nbits`. A number that does not fit 16 bits is no command word. -/
def decodeTableWord (nbits w : Nat) : Option Instr :=
  if nbits ≤ 16 ∧ w < 2 ^ nbits then (decode (BitVec.ofNat 16 w)).toOption else none

/-! Each row's decoding, by words written out from the patterns of R62. -/

theorem decode_setData_zero : decode 0b0001000000000000#16 = .ok (.setData false) := rfl
theorem decode_setData_one : decode 0b0001000000000001#16 = .ok (.setData true) := rfl
theorem decode_clkLow : decode 0b0001010000000000#16 = .ok .clkLow := rfl
theorem decode_clkHigh : decode 0b0001010000000001#16 = .ok .clkHigh := rfl
theorem decode_latchLow : decode 0b0001100000000000#16 = .ok .latchLow := rfl
theorem decode_latchHigh : decode 0b0001100000000001#16 = .ok .latchHigh := rfl
theorem decode_waitD : decode 0b0010000000000000#16 = .ok .waitD := rfl
theorem decode_shiftByte : decode 0b0011000010100101#16 = .ok (.shiftByte 0xA5) := rfl
theorem decode_renderRow : decode 0b0100000000000110#16 = .ok (.renderRow 6) := rfl
theorem decode_renderFrame : decode 0b0101000000000000#16 = .ok .renderFrame := rfl

/-- CLEAR_DATA's word is SET_DATA 0's, and reads as that command (R65: a decoder skips the pseudo row). -/
theorem decode_clearData_word : decode 0b0001000000000000#16 = .ok Instr.clearData.core := rfl

end Sys2Proof
end

