-- ==== Sys2Proof/Config.lean ====
section
/-! DEFINITION. Config.lean: the open parameters of R9 and the free values. Nothing here has a body: no proof
can see a parameter's value or a free value, so a theorem that mentions one holds whatever it is. -/

namespace Sys2Proof

/-- The open parameters (R9), all in abstract time units but the divider. `gameDivN` is at least 1, so its
predecessor is what is stored. A state carries its parameters as plain data that no step changes, so every
statement over states is a statement over all parameters. -/
structure Params where
  /-- `DELAY_D`, the bit-shift delay (R9, R25). -/
  delayD : Nat
  /-- `TICK_T`, the display-tick period (R9, R142). -/
  tickT : Nat
  /-- `GAME_DIV_N` less one (R9). -/
  gameDivLessOne : Nat
  /-- `GAMEOVER_PAUSE`, the length of the blocking pause (R9, R147). -/
  gameoverPause : Nat
  /-- `T_SU`: DATA setup before a CLOCK rise (R164). -/
  tSU : Nat
  /-- `T_H`: DATA hold after a CLOCK rise (R164). -/
  tH : Nat
  /-- `T_WH`: CLOCK high width (R164). -/
  tWH : Nat
  /-- `T_WL`: CLOCK low width (R164). -/
  tWL : Nat
  /-- `T_LS`: last CLOCK rise before a LATCH rise (R164). -/
  tLS : Nat
  /-- `T_LW`: LATCH low and high widths (R164). -/
  tLW : Nat
  deriving DecidableEq, Repr, Inhabited

/-- `GAME_DIV_N ≥ 1`, the game-tick threshold N (R9, R136). -/
def Params.gameDivN (p : Params) : Nat := p.gameDivLessOne + 1

/-- The levels of the three output lines. -/
structure Pins where
  data : Bit
  clock : Bit
  latch : Bit
  deriving DecidableEq, Repr, Inhabited

/-- The parameters the machine is instantiated with (R9, R25): open. -/
opaque Config.params : Params

/-- `INIT_PINS`, the draw of the three pin levels at the reset that `State.reset` is (R9, R24): open, "a claim
must hold for all 8 draws". A later reset brings its own draw as plain data. -/
opaque Config.initPins : Pins

/-- FREE VALUE. The duration drawn by the n-th use of a free value, where the state's list of drawn durations
is used up (R86, R90, R109). -/
opaque Config.duration : Nat → Nat

/-- FREE VALUE. Whether the main loop's n-th choice services `needsRepaint` before `needsGameUpdate` (R137:
both orders are admitted in every pass). -/
opaque Config.repaintFirst : Nat → Bool

/-- FREE VALUE. Whether the n-th choice finds the game over in GameUpdate (R147; game logic is outside the
block, R7). -/
opaque Config.gameOver : Nat → Bool

/-- FREE VALUE. The row j that the n-th run of GameUpdate leaves in the playfield (R32, R137; game logic is
outside the block, R7). -/
opaque Config.gameRow : Nat → Nat → Byte

end Sys2Proof
end

