-- ==== Sys2Proof/Machine/State.lean ====
section
/-! DEFINITION. Machine/State.lean: the state of the whole model (R17): block, external chain, environment,
event trace and clock, with the caller and the schedule of the other agents; and the state after reset. -/

namespace Sys2Proof.Machine

/-- The sequencer state (R18). -/
inductive Mode where
  /-- No command is running and a new one may be issued. -/
  | idle
  /-- A command is running. -/
  | busy
  /-- A fault was raised; only reset leaves it. -/
  | fault
  deriving DecidableEq, Repr

/-- The fault causes (R22, R129). -/
inductive FaultCause where
  | none
  | reservedCommand
  | rowRange
  | unwritten
  | timing
  deriving DecidableEq, Repr

/-- The events of the trace (R34). The row index of `read` is a number as READ_ROW's is. A RESERVED_COMMAND
fault carries the word (R122, R127). -/
inductive Event where
  | pin (l : Line) (old new : Bit)
  | shift (d : Bit)
  | latch (q : Chain)
  | read (j : Nat) (v : Byte)
  | done (cmd : Word)
  | fault (cause : FaultCause) (word : Option Word)
  deriving DecidableEq, Repr

/-- An event of the trace with the time it occurred at in the timed semantics (R35); `none` in the untimed
semantics, which has no time. -/
structure Stamped where
  stamp : Option Nat
  event : Event
  deriving DecidableEq, Repr

/-- The two services of a main-loop pass (R137). -/
inductive Service where
  | gameUpdate
  | repaint
  deriving DecidableEq, Repr

/-- Where the main loop of R137 stands; `rest` is what the running pass has still to look at. -/
inductive LoopPhase where
  /-- Polling the flag of the next service; with nothing left, a new pass begins. -/
  | polling (rest : List Service)
  /-- GameUpdate() is running. -/
  | updating (rest : List Service)
  /-- GameUpdate() found the game over: the blocking pause, after which the playfield is cleared (R147). -/
  | gameOver (rest : List Service)
  /-- GameUpdate() is done; `needsGameUpdate` is cleared next. -/
  | updated (rest : List Service)
  /-- RENDER_FRAME was issued; `needsRepaint` is cleared when it has ended. -/
  | framing (rest : List Service)
  deriving DecidableEq, Repr

/-- Who issues commands in the main context: a caller program with its index `hpc` (R148), or the system's
main loop (R137). -/
inductive Caller where
  | program (words : List Word) (hpc : Nat)
  | mainLoop (phase : LoopPhase)
  deriving DecidableEq, Repr

/-- Whose turn a step is, and what the environment brings in it (R144, R134, R135, R154). -/
inductive Turn where
  /-- The main context: the block when BUSY, its caller when IDLE (R148). -/
  | main
  /-- The timer handler (R136). -/
  | timer
  /-- The serial-transmit handler (R135). -/
  | serial
  /-- Time passes outside the micro-ops: preemption and the caller's own time (R134, R161). -/
  | elapse (d : Nat)
  /-- Game logic writes one playfield row (R32, R165). -/
  | writeRow (j : Fin 8) (v : Byte)
  /-- A reset, after power-up or warm, with its draw of INIT_PINS (R150, R154). -/
  | reset (powerUp : Bool) (draw : Pins)
  deriving DecidableEq, Repr

/-- The playfield as a memory: a list of row index and row, indices strictly rising, no entry equal to what an
unlisted row reads as. -/
abbrev Memory := List Host.Cell

/-- Why a step stops. -/
inductive Fault where
  /-- Raised by the main context's turn in FAULT: "In FAULT the block takes no step and accepts no command"
  (R131). The stuck state the spec asks for. Safe. -/
  | blockFaulted (cause : FaultCause)
  /-- Raised by a micro-op step outside BUSY (R71 requires BUSY). No run reaches it: a step runs a command only
  in BUSY. Safe. -/
  | notBusy
  /-- Raised by a micro-op step whose `upc` is not below the length of the command's list (R19 gives the range).
  No run reaches it. Safe. -/
  | upcOutOfRange
  /-- Raised by a step in BUSY whose `cmd` is a reserved word; issue never leaves one there (R55). No run reaches
  it. Safe. -/
  | cmdReserved
  deriving DecidableEq, Repr

/-- Why an instruction is refused. -/
inductive Refusal where
  /-- Raised by an arm of `exec` that has no meaning yet, with the table's mnemonic. Safe. -/
  | notModelled (mnemonic : String)
  deriving DecidableEq, Repr

/-- The state of the model (R17, R36). The last seven fields are the model's own. -/
structure State where
  /-- The sequencer state (R18). -/
  mode : Mode
  /-- The running command's word (R20). -/
  cmd : Word
  /-- The micro-op index, 11 bits: 0..1079 (R19). -/
  upc : Nat
  /-- The column-data byte, `none` being "unwritten" (R21). -/
  colbyte : Option Byte
  /-- The first fault raised (R22). -/
  faultCause : FaultCause
  /-- The levels the block drives on the three lines (R24). -/
  pins : Pins
  /-- The shift stages S[15:0] of the chain (R27). -/
  shiftS : Chain
  /-- The output register Q[15:0] of the chain (R28). -/
  outQ : Chain
  /-- The playfield PF[0..7] (R32, R43). -/
  pf : Memory
  /-- The repaint request (R33). -/
  needsRepaint : Bit
  /-- The game-update request (R33). -/
  needsGameUpdate : Bit
  /-- The timer handler's counter, 0..GAME_DIV_N (R33, R142). -/
  tickCount : Nat
  /-- The event trace, oldest first (R34). -/
  trace : List Stamped
  /-- The time, in the timed semantics (R35). -/
  now : Nat
  /-- The caller and where it stands: `hpc` of R148, or the main loop of R137. -/
  caller : Caller
  /-- The turns to come; when the list is used up every turn is the main context's. -/
  sched : List Turn
  /-- Whether the timed semantics runs, or the untimed one (R35). -/
  timed : Bool
  /-- The open parameters (R9); no step changes them. -/
  params : Params
  /-- The durations drawn by the coming micro-ops in the timed semantics; when the list is used up the
  durations are `Config.duration`'s. -/
  draws : List Nat
  /-- How many free values have been used. -/
  freeIndex : Nat
  /-- When the hardware timer's next period ends, in the timed semantics (R142). -/
  tickDue : Nat
  deriving DecidableEq, Repr

/-- The state right after a power-up reset (R36, R151, R154). The pins are the draw INIT_PINS, the chain is all
⊥; `cmd` and what an unlisted playfield row reads as are the log's (entries 4 and 5); the caller holds no
program, the schedule is empty and the untimed semantics runs (entries 6 and 7). -/
def State.reset : State where
  mode := .idle
  cmd := 0
  upc := 0
  colbyte := none
  faultCause := .none
  pins := Config.initPins
  shiftS := Vector.replicate 16 none
  outQ := Vector.replicate 16 none
  pf := []
  needsRepaint := false
  needsGameUpdate := false
  tickCount := 0
  trace := []
  now := 0
  caller := .program [] 0
  sched := []
  timed := false
  params := Config.params
  draws := []
  freeIndex := 0
  tickDue := Config.params.tickT

end Sys2Proof.Machine
end

