-- ==== Sys2Proof/Machine/Operands.lean ====
section
/-! DEFINITION. Machine/Operands.lean: the bytes a command sends, bit by bit (R93, R95, R107), the micro-op lists
commands expand into (R72), and the views of the chain's outputs (R29, R30). -/

namespace Sys2Proof.Machine

/-! ### Bytes -/

/-- Bit i of a byte (R11). -/
def bitOf (b : Byte) (i : Fin 8) : Bit := b.getLsbD i.val

/-- `rev8(b)`: bit k is `b[7-k]` (R14). The block never computes it; results are stated with it. -/
def rev8 (b : Byte) : Byte := b.reverse

/-- The row-select byte `~(1<<j) & 0xFF`, the complement taken at 8 bits (R107). -/
def rowsel (j : Nat) : Byte := ~~~((1 : Byte) <<< j)

/-! ### Micro-op lists -/

/-- The data micro-op for bit i of a byte source (R93). -/
def dataOp : ByteSource → Fin 8 → MicroOp
  | .const b, i => .pin .data (bitOf b i)
  | .col, i => .dataCol i

/-- The eight micro-ops of one bit: clock-low, set-data, clock-high, clear-data, each with one delay after it
(R94). -/
def bitSeq (src : ByteSource) (i : Fin 8) : List MicroOp :=
  [.pin .clock false, .wait, dataOp src i, .wait, .pin .clock true, .wait, .pin .data false, .wait]

/-- The 64 micro-ops of one byte, bit 0 first (R95, R96). -/
def shiftSeq (src : ByteSource) : List MicroOp := (List.finRange 8).flatMap (bitSeq src)

/-- The 135 micro-ops of row j (R108). -/
def rowSeq (j : Nat) : List MicroOp :=
  [.wait, .pin .latch false, .wait] ++ shiftSeq (.const (rowsel j)) ++ [.readRow j] ++ shiftSeq .col
    ++ [.wait, .pin .latch true, .wait]

/-- The 1080 micro-ops of a frame: the rows 0 to 7 in order (R103, R114). -/
def frameSeq : List MicroOp := (List.range 8).flatMap rowSeq

/-- `expand(cmd)`: each command's micro-op list (R72). -/
def expand : Instr → List MicroOp
  | .setData v => [.pin .data v]
  | .clkLow => [.pin .clock false]
  | .clkHigh => [.pin .clock true]
  | .latchLow => [.pin .latch false]
  | .latchHigh => [.pin .latch true]
  | .waitD => [.wait]
  | .shiftByte b => shiftSeq (.const b)
  | .renderRow j => rowSeq j
  | .renderFrame => frameSeq
  | .clearData => [.pin .data false]

/-! ### Views of the output register -/

/-- The row line i: `RowOut[i] = Q[15-i]` (R29). -/
def rowOut (q : Chain) (i : Fin 8) : Stage := q[15 - i.val]

/-- The column line i: `ColOut[i] = Q[7-i]` (R29). -/
def colOut (q : Chain) (i : Fin 8) : Stage := q[7 - i.val]

/-- Whether matrix row y is selected: the strobe is active-low (R30); `none` is unknown. -/
def selected (q : Chain) (y : Fin 8) : Option Bool := (rowOut q y).map (fun r => !r)

/-- Whether cell (x, y) is lit: `RowOut[y] = 0` and `ColOut[x] = 1`; unknown if a bit involved is ⊥ (R30). -/
def lit (q : Chain) (x y : Fin 8) : Option Bool :=
  match rowOut q y, colOut q x with
  | some r, some k => some (!r && k)
  | _, _ => none

/-- A 16-bit value as a chain with no ⊥ stage, bit k in stage k (R27, R28). -/
def chainOf (w : Word) : Chain := Vector.ofFn fun k => some (w.getLsbD k.val)

end Sys2Proof.Machine
end

