-- ==== Sys2Proof/Machine/Ops.lean ====
section
/-! DEFINITION. Machine/Ops.lean: the named operations over memory, lines, chain, trace and time, raising a fault
and leaving it by reset, the four micro-ops, the micro-op step and the issue of a command. -/

namespace Sys2Proof.Machine

/-! ### The playfield as memory -/

/-- What a row that nothing has written reads as. Every read of rows 0..7 gives a value (R119, R126); the spec
fixes none. DESIGN CHOICE (log entry 5), unsafe. -/
def Memory.unlisted : Byte := 0

/-- The row at index j: one 8-bit read with no side effect (R40, R43). -/
def Memory.read : Memory → Nat → Byte
  | [], _ => Memory.unlisted
  | (a, v) :: m, j => if a = j then v else Memory.read m j

/-- The list with the entry of row j set to v, or removed where v is what an unlisted row reads as. -/
def Memory.write : Memory → Nat → Byte → Memory
  | [], j, v => if v = Memory.unlisted then [] else [(j, v)]
  | (a, u) :: m, j, v =>
    if j < a then (if v = Memory.unlisted then (a, u) :: m else (j, v) :: (a, u) :: m)
    else if j = a then (if v = Memory.unlisted then m else (a, v) :: m)
    else (a, u) :: Memory.write m j v

/-- The canonical form: indices strictly rising and no entry equal to what an unlisted row reads as. -/
def Memory.wf : Memory → Bool
  | [] => true
  | (a, v) :: m => v != Memory.unlisted && m.all (fun e => a < e.1) && Memory.wf m

/-- Every listed row lies in the playfield's address space 0..7 (R43). -/
def Memory.inRange (m : Memory) : Bool := m.all (fun e => e.1 < 8)

/-! ### Trace and time -/

/-- The stamp an event gets: the time in the timed semantics, none in the untimed one (R35). -/
def stampNow (s : State) : Option Nat := if s.timed then some s.now else none

/-- `emit E`: append an event to the trace (R12, R34). -/
def emit (e : Event) (s : State) : State := { s with trace := s.trace ++ [⟨stampNow s, e⟩] }

/-- The duration of the k-th micro-op to come (R86, R90, R109): the next drawn ones, then free values. -/
def drawAt (s : State) (k : Nat) : Nat :=
  match s.draws[k]? with
  | some d => d
  | none => Config.duration (s.freeIndex + k)

/-- A micro-op's duration passes: `now <- now + δ` in the timed semantics (R35, R86, R90); the untimed semantics
drops it. -/
def spend (s : State) : State :=
  { s with
    now := if s.timed then s.now + drawAt s 0 else s.now
    draws := if s.timed then s.draws.tail else s.draws
    freeIndex := if s.timed then s.freeIndex + 1 else s.freeIndex }

/-- Time passes outside the micro-ops (R134, R161). -/
def elapse (d : Nat) (s : State) : State := { s with now := if s.timed then s.now + d else s.now }

/-! ### Taking a fault, and leaving it -/

/-- The code of a fault cause (R129). -/
def FaultCause.code : FaultCause → Nat
  | .none => 0
  | .reservedCommand => 1
  | .rowRange => 2
  | .unwritten => 3
  | .timing => 4

/-- `raise Fault(c)` (R130): the first cause is kept, the mode becomes FAULT and the trace gains the event, with
the word for RESERVED_COMMAND (R127). Nothing else changes: `cmd` and `upc` keep what they held (R127), the pins
and the chain keep theirs. -/
def raise (c : FaultCause) (word : Option Word) (s : State) : State :=
  emit (.fault c word)
    { s with faultCause := if s.faultCause = .none then c else s.faultCause, mode := .fault }

/-- The caller started anew with the microcontroller (R148: `hpc` starts at 0; R156: startup enters the main
loop). -/
def restartCaller : Caller → Caller
  | .program words _ => .program words 0
  | .mainLoop _ => .mainLoop (.polling [])

/-- `Reset(power_up)` with its draw of INIT_PINS, the only way out of FAULT (R131, R154). After power-up every
stage is ⊥; a warm reset keeps S and Q. `cmd` is left alone, its value being unobservable (R20). -/
def resetStep (powerUp : Bool) (draw : Pins) (s : State) : State :=
  { s with
    mode := .idle
    upc := 0
    faultCause := .none
    colbyte := none
    pins := draw
    shiftS := if powerUp then Vector.replicate 16 none else s.shiftS
    outQ := if powerUp then Vector.replicate 16 none else s.outQ
    needsRepaint := false
    needsGameUpdate := false
    tickCount := 0
    trace := []
    now := 0
    caller := restartCaller s.caller
    tickDue := s.params.tickT }

/-! ### Lines and chain -/

/-- The level of a line (R24). -/
def lineLevel (p : Pins) : Line → Bit
  | .data => p.data
  | .clock => p.clock
  | .latch => p.latch

/-- A line driven to a level; the other two keep theirs (R41). -/
def driveLine (p : Pins) : Line → Bit → Pins
  | .data, v => { p with data := v }
  | .clock, v => { p with clock := v }
  | .latch, v => { p with latch := v }

/-- The chain shifted by one stage toward the far end, d going into stage 0; the old stage 15 is lost (R80). -/
def shiftIn (d : Stage) (q : Chain) : Chain :=
  Vector.ofFn fun k => if h : k.val = 0 then d else q[k.val - 1]

/-- `ClockRise()`: the chain samples DATA and shifts (R77, R80). -/
def clockRise (s : State) : State :=
  emit (.shift s.pins.data) { s with shiftS := shiftIn (some s.pins.data) s.shiftS }

/-- `LatchRise()`: every shift stage is copied into the output register at once (R81). -/
def latchRise (s : State) : State := emit (.latch s.shiftS) { s with outQ := s.shiftS }

/-- Whether driving line L to v makes a rising edge on it (R75). -/
def rises (s : State) (l : Line) (v : Bit) : Bool := !lineLevel s.pins l && v

/-- The chain's answer to a rising edge on a line: only CLOCK and LATCH have one (R76, R79). -/
def edge : Line → State → State
  | .data, s => s
  | .clock, s => clockRise s
  | .latch, s => latchRise s

/-- The write of one line, its event and the chain's answer, all at one instant (R42, R79, R90). -/
def pinWrite (l : Line) (v : Bit) (s : State) : State :=
  let written := emit (.pin l (lineLevel s.pins l) v) { s with pins := driveLine s.pins l v }
  if rises s l v then edge l written else written

/-! ### The micro-ops -/

/-- `PIN(L, v)`: it raises no fault and may take any time (R79, R90). -/
def performPin (l : Line) (v : Bit) (s : State) : State := spend (pinWrite l v s)

/-- Whether a WAIT starting now would be shorter than the contract (R86, R132). -/
def waitTooShort (s : State) : Bool := s.timed && drawAt s 0 < s.params.delayD

/-- `WAIT`: nothing in the untimed semantics; in the timed one the drawn duration passes, and a draw below
`DELAY_D` raises TIMING (R86, R132). That the time of a short draw passes before the fault is DEDUCED (log entry 15),
unsafe. -/
def performWait (s : State) : State :=
  if waitTooShort s then raise .timing none (spend s) else spend s

/-- `READ_ROW(j)` (R109, R123). A READ_ROW that faults takes no time and uses up no draw: DESIGN CHOICE (log entry 30),
unsafe. The stamp of the `Read` event is the start of the step: DEDUCED (log entry 18), unsafe. -/
def performReadRow (j : Nat) (s : State) : State :=
  if 7 < j then raise .rowRange none s
  else
    let v := Memory.read s.pf j
    spend (emit (.read j v) { s with colbyte := some v })

/-- `DATA_COL(i)` (R110, R124). A DATA_COL that faults takes no time and uses up no draw: DESIGN CHOICE (log entry 30),
unsafe. -/
def performDataCol (i : Fin 8) (s : State) : State :=
  match s.colbyte with
  | none => raise .unwritten none s
  | some b => performPin .data (bitOf b i) s

/-- One micro-op (R69). -/
def perform : MicroOp → State → State
  | .pin l v, s => performPin l v s
  | .wait, s => performWait s
  | .readRow j, s => performReadRow j s
  | .dataCol i, s => performDataCol i s

/-! ### The micro-op step and the issue of a command -/

/-- The advance after a micro-op of a list of n: `upc` moves on by one, and at the end the command ends (R19,
R71). -/
def advance (n : Nat) (s : State) : State :=
  if s.upc + 1 = n then emit (.done s.cmd) { s with mode := .idle, upc := 0 }
  else { s with upc := s.upc + 1 }

/-- The advance happens only while BUSY: a fault stops the command where it is (R71, R128). -/
def settle (n : Nat) (s : State) : State := if s.mode = .busy then advance n s else s

/-- `Step()` of R71 over the running command's micro-op list: the micro-op at `upc`, then the advance. -/
def microStep (ops : List MicroOp) (s : State) : Host.Outcome State Fault Refusal :=
  match s.mode with
  | .busy =>
    match ops[s.upc]? with
    | some op => .next (settle ops.length (perform op s))
    | none => .fault .upcOutOfRange
  | .idle => .fault .notBusy
  | .fault => .fault .notBusy

/-- `Issue(w)` (R55): a reserved word faults and starts nothing (R63, R122); a command word starts its command.
The callers issue only in IDLE. -/
def issue (w : Word) (s : State) : State :=
  match decode w with
  | .ok _ => { s with cmd := w, upc := 0, mode := .busy }
  | .error _ => raise .reservedCommand (some w) s

end Sys2Proof.Machine
end

