-- ==== Sys2Proof/Machine/PinCommands.lean ====
section
/-! DEFINITION. Machine/PinCommands.lean: the commands that run one micro-op (41_pin_primitives.md). Each meaning
is one micro-op step (R71) of the command's own list (R72). -/

namespace Sys2Proof.Machine

/-- SET_DATA v: `PIN(DATA, v)` (R83). -/
def execSetData (v : Bit) (s : State) : Host.Outcome State Fault Refusal := microStep [.pin .data v] s

/-- CLK_LOW: `PIN(CLOCK, 0)` (R82). -/
def execClkLow (s : State) : Host.Outcome State Fault Refusal := microStep [.pin .clock false] s

/-- CLK_HIGH: `PIN(CLOCK, 1)`, which shifts the chain when CLOCK was 0 (R84). -/
def execClkHigh (s : State) : Host.Outcome State Fault Refusal := microStep [.pin .clock true] s

/-- LATCH_LOW: `PIN(LATCH, 0)` (R87). -/
def execLatchLow (s : State) : Host.Outcome State Fault Refusal := microStep [.pin .latch false] s

/-- LATCH_HIGH: `PIN(LATCH, 1)`, which copies S into Q when LATCH was 0 (R88). -/
def execLatchHigh (s : State) : Host.Outcome State Fault Refusal := microStep [.pin .latch true] s

/-- WAIT_D: the `WAIT` micro-op (R89). -/
def execWaitD (s : State) : Host.Outcome State Fault Refusal := microStep [.wait] s

/-- CLEAR_DATA: `PIN(DATA, 0)` (R85). -/
def execClearData (s : State) : Host.Outcome State Fault Refusal := microStep [.pin .data false] s

end Sys2Proof.Machine
end

