-- ==== Sys2Proof/Machine/Render.lean ====
section
/-! DEFINITION. Machine/Render.lean: RENDER_ROW and RENDER_FRAME (43_render.md). -/

namespace Sys2Proof.Machine

/-- RENDER_ROW j: the block runs `rowSeq(j)`, one micro-op per step (R111). -/
def execRenderRow (j : Nat) (s : State) : Host.Outcome State Fault Refusal := microStep (rowSeq j) s

/-- RENDER_FRAME: the block runs `rowSeq(0) ++ … ++ rowSeq(7)`, one micro-op per step (R114). -/
def execRenderFrame (s : State) : Host.Outcome State Fault Refusal := microStep frameSeq s

end Sys2Proof.Machine
end

