-- ==== Sys2Proof/Machine/ShiftByte.lean ====
section
/-! DEFINITION. Machine/ShiftByte.lean: SHIFT_BYTE (42_shift_byte.md). -/

namespace Sys2Proof.Machine

/-- SHIFT_BYTE b: the block runs `shiftSeq(CONST b)`, one micro-op per step (R97). -/
def execShiftByte (b : Byte) (s : State) : Host.Outcome State Fault Refusal := microStep (shiftSeq (.const b)) s

end Sys2Proof.Machine
end

