-- ==== Sys2Proof/Machine/Dispatch.lean ====
section
/-! DEFINITION. Machine/Dispatch.lean: one arm per command; each performs the running command's micro-op at `upc`
(R71). -/

namespace Sys2Proof.Machine

def exec (i : Instr) (s : State) : Host.Outcome State Fault Refusal :=
  match i with
  | .setData v => Sys2Proof.Machine.execSetData v s
  | .clkLow => Sys2Proof.Machine.execClkLow s
  | .clkHigh => Sys2Proof.Machine.execClkHigh s
  | .latchLow => Sys2Proof.Machine.execLatchLow s
  | .latchHigh => Sys2Proof.Machine.execLatchHigh s
  | .waitD => Sys2Proof.Machine.execWaitD s
  | .shiftByte b => Sys2Proof.Machine.execShiftByte b s
  | .renderRow j => Sys2Proof.Machine.execRenderRow j s
  | .renderFrame => Sys2Proof.Machine.execRenderFrame s
  | .clearData => Sys2Proof.Machine.execClearData s

end Sys2Proof.Machine
end

