-- ==== Sys2Proof/Machine/Flags.lean ====
section
/-! DEFINITION. Machine/Flags.lean: the scheduler's flags and counter (R33). The block has no status flags (R23),
so these are the only flag computations the spec gives. -/

namespace Sys2Proof.Machine

/-- The tick counter after a tick: it counts to GAME_DIV_N and starts again (R136). -/
def tickNext (s : State) : Nat := if s.tickCount + 1 = s.params.gameDivN then 0 else s.tickCount + 1

/-- Whether this tick is a game-tick (R136). -/
def gameTick (s : State) : Bool := s.tickCount + 1 = s.params.gameDivN

/-- `TimerISR()` (R136): flag-setting and counting only. A flag already set stays set: ticks are coalesced
(R138). -/
def timerHandler (s : State) : State :=
  { s with
    needsRepaint := true
    needsGameUpdate := s.needsGameUpdate || gameTick s
    tickCount := tickNext s }

/-- Whether the hardware timer has a tick to deliver: in the timed semantics its period must have ended (R136,
R142); in the untimed one it may come at any time. -/
def tickReady (s : State) : Bool := !s.timed || s.tickDue ≤ s.now

/-- The timer's turn: the handler runs if its tick is due, and the next period begins where the last ended. -/
def timerTurn (s : State) : State :=
  if tickReady s then
    timerHandler { s with tickDue := if s.timed then s.tickDue + s.params.tickT else s.tickDue }
  else s

/-- The main loop clears the repaint request after service (R137, R138). -/
def clearRepaint (s : State) : State := { s with needsRepaint := false }

/-- The main loop clears the game-update request after service (R137). -/
def clearGameUpdate (s : State) : State := { s with needsGameUpdate := false }

end Sys2Proof.Machine
end

