-- ==== Sys2Proof/Machine/Scheduler.lean ====
section
/-! DEFINITION. Machine/Scheduler.lean: the caller of the block, a program (R148) or the main loop (R137), and
the turns of the other agents (R144). -/

namespace Sys2Proof.Machine

/-! ### The main loop -/

/-- The services of a pass in the order it takes them; both orders are admitted (R137). -/
def passOrder (repaintFirst : Bool) : List Service :=
  if repaintFirst then [.repaint, .gameUpdate] else [.gameUpdate, .repaint]

/-- The main loop at another place. -/
def atPhase (p : LoopPhase) (s : State) : State := { s with caller := .mainLoop p }

/-- A free value is used up. -/
def useFree (s : State) : State := { s with freeIndex := s.freeIndex + 1 }

/-- The playfield with every row at the value that run n of GameUpdate gives it (R137: GameUpdate is outside the
block; R32: any value). -/
def gameRows (n : Nat) (m : Memory) : Memory :=
  (List.range 8).foldl (fun m j => Memory.write m j (Config.gameRow n j)) m

/-- The playfield cleared, as at the end of the GameOver pause (R147). -/
def clearRows (m : Memory) : Memory := (List.range 8).foldl (fun m j => Memory.write m j 0) m

/-- One step of the main loop, taken while the block is IDLE (R137, R147). -/
def mainLoopStep (p : LoopPhase) (s : State) : State :=
  match p with
  | .polling [] => useFree (atPhase (.polling (passOrder (Config.repaintFirst s.freeIndex))) s)
  | .polling (.gameUpdate :: rest) =>
    if s.needsGameUpdate then atPhase (.updating rest) s else atPhase (.polling rest) s
  | .polling (.repaint :: rest) =>
    if s.needsRepaint then issue (encode .renderFrame) (atPhase (.framing rest) s)
    else atPhase (.polling rest) s
  | .updating rest =>
    if Config.gameOver s.freeIndex then useFree (atPhase (.gameOver rest) s)
    else useFree (atPhase (.updated rest) { s with pf := gameRows s.freeIndex s.pf })
  | .gameOver rest =>
    atPhase (.updated rest) (elapse s.params.gameoverPause { s with pf := clearRows s.pf })
  | .updated rest => atPhase (.polling rest) (clearGameUpdate s)
  | .framing rest => atPhase (.polling rest) (clearRepaint s)

/-! ### The caller program -/

/-- The caller of a program: while `hpc < n` it issues `P[hpc]` and increments `hpc` (R148); at the end it issues
nothing more and the run is over (R149), the block waiting in IDLE (R152). -/
def programStep (words : List Word) (hpc : Nat) (s : State) : State :=
  match words[hpc]? with
  | some w => issue w { s with caller := .program words (hpc + 1) }
  | none => s

/-- The caller's step in IDLE (R55). -/
def callerStep (s : State) : State :=
  match s.caller with
  | .program words hpc => programStep words hpc s
  | .mainLoop p => mainLoopStep p s

/-! ### The other agents -/

/-- A turn of an agent other than the main context. The serial handler touches no state of the model (R135); the
timer handler touches only the scheduler's (R134). Reset is admitted in every mode (R131). -/
def otherTurn (t : Turn) (s : State) : State :=
  match t with
  | .main => s
  | .timer => timerTurn s
  | .serial => s
  | .elapse d => elapse d s
  | .writeRow j v => { s with pf := Memory.write s.pf j.val v }
  | .reset powerUp draw => resetStep powerUp draw s

end Sys2Proof.Machine
end

