-- ==== Sys2Proof/Machine/Turn.lean ====
section
/-! DEFINITION. Machine/Turn.lean: whose turn a step is, the main context's turn, a command's run, and where a
command is put to be run next. -/

namespace Sys2Proof.Machine

/-- The main context's turn: the caller in IDLE (R55), the running command's micro-op in BUSY (R71), nothing in
FAULT (R131). -/
def mainTurn (s : State) : Host.Outcome State Fault Refusal :=
  match s.mode with
  | .idle => .next (callerStep s)
  | .busy =>
    match decode s.cmd with
    | .ok i => exec i s
    | .error _ => .fault .cmdReserved
  | .fault => .fault (.blockFaulted s.faultCause)

/-- A turn, taken off the schedule. -/
def takeTurn (t : Turn) (s : State) : Host.Outcome State Fault Refusal :=
  match t with
  | .main => mainTurn s
  | .timer => .next (otherTurn .timer s)
  | .serial => .next (otherTurn .serial s)
  | .elapse d => .next (otherTurn (.elapse d) s)
  | .writeRow j v => .next (otherTurn (.writeRow j v) s)
  | .reset powerUp draw => .next (otherTurn (.reset powerUp draw) s)

/-- One step of the whole model: the next turn of the schedule, and the main context's turn when it is used up
(R134: a handler may run between any two micro-ops). -/
def nextTurn (s : State) : Host.Outcome State Fault Refusal :=
  match s.sched with
  | [] => mainTurn s
  | t :: rest => takeTurn t { s with sched := rest }

/-- n micro-op steps of one command, stopping at the first fault or refusal. -/
def execFor (i : Instr) : Nat → State → Host.Outcome State Fault Refusal
  | 0, s => .next s
  | n + 1, s =>
    match exec i s with
    | .next t => execFor i n t
    | .fault r => .fault r
    | .refused r => .refused r

/-- The whole of a command (R15): as many micro-op steps as its list has entries (R72). -/
def execAll (i : Instr) (s : State) : Host.Outcome State Fault Refusal := execFor i (expand i).length s

/-- The state with a word where the block runs its command from. A command word stands as just issued (R55), so
that the next step is its first micro-op; a reserved word stands as the caller's next word, so that the next step
is its issue. -/
def placeWord (w : Word) (s : State) : State :=
  match decode w with
  | .ok _ => { s with mode := .busy, cmd := w, upc := 0, sched := [] }
  | .error _ => { s with mode := .idle, caller := .program [w] 0, sched := [] }

end Sys2Proof.Machine
end

