-- ==== Sys2Proof/Machine/Step.lean ====
section
/-! DEFINITION. Machine/Step.lean: one step, and the placing of a command for the next step. -/

namespace Sys2Proof.Machine

/-- One step of the model (R71, R148): see `nextTurn`. -/
def step (s : State) : Host.Outcome State Fault Refusal := nextTurn s

/-- `s` with the instruction whose bits are `w` placed so that the next step runs it. -/
def State.withFetchWord (s : State) (_nbits w : Nat) : State := placeWord (BitVec.ofNat 16 w) s

end Sys2Proof.Machine
end

