-- ==== Sys2Proof/Machine/Assembly.lean ====
section
/-! DEFINITION. Machine/Assembly.lean: the assembly syntax of R67 and R68, from a line's characters to the word a
caller issues. The block itself never sees it. -/

namespace Sys2Proof.Machine

/-- A command with one operand of 0..max, or none where the operand is missing or out of range: "An operand out of
range is refused by the assembler; it is not encoded modulo" (R67). -/
def oneOperand (max : Nat) (build : Nat → Instr) : Option Nat → Option Instr
  | some n => if n ≤ max then some (build n) else none
  | none => none

/-- A command without operand. -/
def noOperand (i : Instr) : Option Nat → Option Instr
  | some _ => none
  | none => some i

/-- The mnemonics, in upper case, and what each makes of its operand (R62, R67, R68). -/
def mnemonicTable : List (List Char × (Option Nat → Option Instr)) :=
  [ (['S', 'E', 'T', '_', 'D', 'A', 'T', 'A'], oneOperand 1 (fun n => .setData (n == 1))),
    (['C', 'L', 'K', '_', 'L', 'O', 'W'], noOperand .clkLow),
    (['C', 'L', 'K', '_', 'H', 'I', 'G', 'H'], noOperand .clkHigh),
    (['L', 'A', 'T', 'C', 'H', '_', 'L', 'O', 'W'], noOperand .latchLow),
    (['L', 'A', 'T', 'C', 'H', '_', 'H', 'I', 'G', 'H'], noOperand .latchHigh),
    (['W', 'A', 'I', 'T', '_', 'D'], noOperand .waitD),
    (['S', 'H', 'I', 'F', 'T', '_', 'B', 'Y', 'T', 'E'], oneOperand 255 (fun n => .shiftByte (BitVec.ofNat 8 n))),
    (['R', 'E', 'N', 'D', 'E', 'R', '_', 'R', 'O', 'W'], oneOperand 7 (fun n => .renderRow n)),
    (['R', 'E', 'N', 'D', 'E', 'R', '_', 'F', 'R', 'A', 'M', 'E'], noOperand .renderFrame),
    (['C', 'L', 'E', 'A', 'R', '_', 'D', 'A', 'T', 'A'], noOperand .clearData) ]

/-- The command a mnemonic and its operand name, or none where the assembler refuses them. -/
def commandNamed (name : List Char) (operand : Option Nat) : Option Instr :=
  match mnemonicTable.find? (fun e => e.1 == name) with
  | some e => e.2 operand
  | none => none

/-- The directive `.word N`, N in 0..0xFFFF: the raw word N (R67). -/
def rawWord (n : Nat) : Option Word := if n ≤ 0xFFFF then some (BitVec.ofNat 16 n) else none

/-- A digit's value in a base, 10 or 16. -/
def digitValue (base : Nat) (ch : Char) : Option Nat :=
  let n := ch.toNat
  let v :=
    if 48 ≤ n ∧ n ≤ 57 then n - 48
    else if 65 ≤ n ∧ n ≤ 70 then n - 55
    else if 97 ≤ n ∧ n ≤ 102 then n - 87
    else base
  if v < base then some v else none

/-- The value of digits in a base, most significant first, from what has been read so far. -/
def digitsValue (base : Nat) : Nat → List Char → Option Nat
  | n, [] => some n
  | n, ch :: rest =>
    match digitValue base ch with
    | some v => digitsValue base (base * n + v) rest
    | none => none

/-- A number, decimal or `0x` hex (R67). -/
def numberOf : List Char → Option Nat
  | [] => none
  | ['0', 'x'] => none
  | '0' :: 'x' :: ds => digitsValue 16 0 ds
  | ds => digitsValue 10 0 ds

/-- The words of a line between blanks; `acc` is the word being read, last character first. -/
def tokensFrom : List Char → List Char → List (List Char)
  | acc, [] => if acc.isEmpty then [] else [acc.reverse]
  | acc, ch :: rest =>
    if ch = ' ' ∨ ch = '\t' then
      (if acc.isEmpty then tokensFrom [] rest else acc.reverse :: tokensFrom [] rest)
    else tokensFrom (ch :: acc) rest

/-- One line: a `;` starts a comment, a line of nothing else gives no word, a command gives one; `none` is a line
the assembler refuses (R67). -/
def assembleLine (line : List Char) : Option (List Word) :=
  match tokensFrom [] (line.takeWhile (fun ch => ch != ';')) with
  | [] => some []
  | [name] => (commandNamed name none).map (fun i => [encode i])
  | [name, operand] =>
    match numberOf operand with
    | some n =>
      if name = ['.', 'w', 'o', 'r', 'd'] then (rawWord n).map (fun w => [w])
      else (commandNamed name (some n)).map (fun i => [encode i])
    | none => none
  | _ :: _ :: _ :: _ => none

/-- A program: its lines' words in order, issued in that order by the caller (R67, R148). -/
def assemble : List (List Char) → Option (List Word)
  | [] => some []
  | line :: rest =>
    match assembleLine line, assemble rest with
    | some ws, some more => some (ws ++ more)
    | _, _ => none

end Sys2Proof.Machine
end

