-- ==== Sys2Proof/Safety.lean ====
section
/-! DEFINITION. Safety.lean: the premises, observations and invariant that statements about the model are made
with. -/

namespace Sys2Proof.Machine

/-! ### Premises -/

/-- `ChainTimingOK`: the chain's needs are met by the block's own delays (R164). A claim about the displayed image
takes it as a premise. -/
abbrev ChainTimingOK (p : Params) : Prop :=
  p.tSU ≤ p.delayD ∧ p.tH ≤ p.delayD ∧ p.tWL ≤ 2 * p.delayD ∧ p.tWH ≤ 2 * p.delayD
    ∧ p.tLS ≤ 3 * p.delayD ∧ p.tLW ≤ 2 * p.delayD

/-- The delay primitive keeps its contract over a list of micro-ops run from here on: every WAIT's draw is at least
`DELAY_D` (R86). In the untimed semantics there is nothing to keep. -/
abbrev WaitsKept (ops : List MicroOp) (s : State) : Prop :=
  s.timed = true → ∀ k < ops.length, ops[k]? = some .wait → s.params.delayD ≤ drawAt s k

/-- The command `i` has just been issued: it is BUSY at its first micro-op (R55). -/
abbrev Started (s : State) : Prop := s.mode = .busy ∧ s.upc = 0

/-- The reserved words, by the three grounds of R63: an unassigned op, line 11 of format P, or a nonzero
reserved-zero bit of a defined op (the z bits of R56). -/
def ReservedWord (w : Word) : Prop :=
  (opField w = 0 ∨ 6 ≤ opField w)
    ∨ (opField w = 1 ∧ lineField w = 3)
    ∨ (opField w = 1 ∧ w.extractLsb' 1 9 ≠ 0)
    ∨ ((opField w = 2 ∨ opField w = 5) ∧ w.extractLsb' 0 12 ≠ 0)
    ∨ (opField w = 3 ∧ w.extractLsb' 8 4 ≠ 0)
    ∨ (opField w = 4 ∧ w.extractLsb' 3 9 ≠ 0)

/-! ### Observations -/

/-- The events of the trace, oldest first, without their stamps (R34). -/
def eventsOf (s : State) : List Event := s.trace.map Stamped.event

/-- The `Pin` events of a list. -/
def pinEvents (es : List Event) : List (Line × Bit × Bit) :=
  es.filterMap fun | .pin l o v => some (l, o, v) | .shift _ => none | .latch _ => none | .read _ _ => none | .done _ => none | .fault _ _ => none

/-- The `Shift` events of a list. -/
def shiftEvents (es : List Event) : List Bit :=
  es.filterMap fun | .pin _ _ _ => none | .shift d => some d | .latch _ => none | .read _ _ => none | .done _ => none | .fault _ _ => none

/-- The `Latch` events of a list: the sequence of displayed images (R34, R118). -/
def latchEvents (es : List Event) : List Chain :=
  es.filterMap fun | .pin _ _ _ => none | .shift _ => none | .latch q => some q | .read _ _ => none | .done _ => none | .fault _ _ => none

/-- The `Read` events of a list. -/
def readEvents (es : List Event) : List (Nat × Byte) :=
  es.filterMap fun | .pin _ _ _ => none | .shift _ => none | .latch _ => none | .read j v => some (j, v) | .done _ => none | .fault _ _ => none

/-- The bits of a byte in the order they go out, bit 0 first (R95). -/
def sentBits (b : Byte) : List Bit := (List.finRange 8).map (bitOf b)

/-- The value S and Q hold after row j with column byte v: `rev8(rowsel(j)) : rev8(v)` (R112). -/
def rowImage (j : Nat) (v : Byte) : Chain := chainOf (rev8 (rowsel j) ++ rev8 v)

/-- How many WAITs a list holds (R168). -/
def waitCount (ops : List MicroOp) : Nat := ops.count .wait

/-- Whether a micro-op writes a line: PIN or DATA_COL (R108). -/
def MicroOp.writesLine : MicroOp → Bool
  | .pin _ _ => true
  | .dataCol _ => true
  | .wait => false
  | .readRow _ => false

/-- Whether a micro-op is a READ_ROW. -/
def MicroOp.readsRow : MicroOp → Bool
  | .readRow _ => true
  | .pin _ _ => false
  | .wait => false
  | .dataCol _ => false

/-- What the block, the chain and the playfield hold, with the events without their stamps: all of the state that
the block computes with (R17, R48). -/
structure BlockView where
  mode : Mode
  cmd : Word
  upc : Nat
  colbyte : Option Byte
  faultCause : FaultCause
  pins : Pins
  shiftS : Chain
  outQ : Chain
  pf : Memory
  events : List Event
  caller : Caller
  deriving DecidableEq, Repr

/-- The block's view of a state. -/
def blockView (s : State) : BlockView where
  mode := s.mode
  cmd := s.cmd
  upc := s.upc
  colbyte := s.colbyte
  faultCause := s.faultCause
  pins := s.pins
  shiftS := s.shiftS
  outQ := s.outQ
  pf := s.pf
  events := eventsOf s
  caller := s.caller

/-- An outcome seen through a view of its next state. -/
def viewOutcome {α : Type} (f : State → α) :
    Host.Outcome State Fault Refusal → Host.Outcome α Fault Refusal
  | .next t => .next (f t)
  | .fault r => .fault r
  | .refused r => .refused r

/-- A turn of an interrupt handler, or time passing (R134, R135). -/
def Turn.isHandler : Turn → Bool
  | .timer => true
  | .serial => true
  | .elapse _ => true
  | .main => false
  | .writeRow _ _ => false
  | .reset _ _ => false

/-! ### What commands leave -/

/-- What no command of the block touches: its own word, the playfield, the scheduler's state, the caller, the
schedule and the parameters (R20, R42, R119, R33). -/
abbrev EnvironmentKept (s t : State) : Prop :=
  t.cmd = s.cmd ∧ t.pf = s.pf ∧ (∀ j, Memory.read t.pf j = Memory.read s.pf j)
    ∧ t.needsRepaint = s.needsRepaint ∧ t.needsGameUpdate = s.needsGameUpdate ∧ t.tickCount = s.tickCount
    ∧ t.caller = s.caller ∧ t.sched = s.sched ∧ t.timed = s.timed ∧ t.params = s.params ∧ t.tickDue = s.tickDue

/-- The state a one-micro-op command ends in, from the state it was started in: IDLE again, the lines and the chain
as given, the micro-op's events stamped at its start, `Done` stamped at its end, its duration spent, and all else
as it was (R19, R35, R71, R90). -/
def commandEnded (s : State) (lines : Pins) (stages outputs : Chain) (events : List Event) : State :=
  { s with
    mode := .idle
    upc := 0
    pins := lines
    shiftS := stages
    outQ := outputs
    trace := s.trace ++ events.map (fun e => ⟨stampNow s, e⟩) ++ [⟨stampNow (spend s), .done s.cmd⟩]
    now := (spend s).now
    draws := (spend s).draws
    freeIndex := (spend s).freeIndex }

/-- How many WAITs stand strictly between positions a and b of a list (R160). -/
def waitsBetween (ops : List MicroOp) (a b : Nat) : Nat := waitCount ((ops.take b).drop (a + 1))

/-- The events of one bit of a byte, `clk` and `dat` being the levels CLOCK and DATA had before it (R100). -/
def bitEvents (clk dat b : Bit) : List Event :=
  [.pin .clock clk false, .pin .data dat b, .pin .clock false true, .shift b, .pin .data b false]

/-- The events of one byte sent from given levels: the bits after the first start with CLOCK 1 and DATA 0 (R94,
R100). -/
def byteEvents (p : Pins) (b : Byte) : List Event :=
  (List.finRange 8).flatMap fun k =>
    bitEvents (if k = 0 then p.clock else true) (if k = 0 then p.data else false) (bitOf b k)

/-! ### Commands issued one after another -/

/-- A command issued and run to its end (R55, R71). -/
def issueAndRun (i : Instr) (s : State) : Host.Outcome State Fault Refusal := execAll i (issue (encode i) s)

/-- Commands issued in order, each when the one before it has ended (R148). -/
def runCommands : List Instr → State → Host.Outcome State Fault Refusal
  | [], s => .next s
  | i :: rest, s =>
    match issueAndRun i s with
    | .next t => runCommands rest t
    | .fault r => .fault r
    | .refused r => .refused r

/-- n steps of the whole model, stopping at the first fault or refusal. -/
def runSteps : Nat → State → Host.Outcome State Fault Refusal
  | 0, s => .next s
  | n + 1, s =>
    match step s with
    | .next t => runSteps n t
    | .fault r => .fault r
    | .refused r => .refused r

/-- The next turn is not a reset. -/
abbrev NoResetNext (s : State) : Prop := ∀ u p rest, s.sched ≠ .reset u p :: rest

/-- The next turn is the main context's: the schedule is used up or names it. -/
abbrev MainNext (s : State) : Prop := s.sched = [] ∨ ∃ rest, s.sched = .main :: rest

/-- The schedule after the next turn. -/
def afterTurn (s : State) : State := { s with sched := s.sched.tail }

/-! ### Assembly text -/

/-- A word of a line: at least one character, none of them a blank or the start of a comment (R67). -/
abbrev IsToken (cs : List Char) : Prop := cs ≠ [] ∧ ∀ ch ∈ cs, ch ≠ ' ' ∧ ch ≠ '\t' ∧ ch ≠ ';'

/-! ### Runs -/

/-- The end of a caller program's run: `hpc = n` and IDLE (R149); FAULT is never an end (R118). -/
def finished (s : State) : Bool :=
  match s.caller with
  | .program words hpc => s.mode == .idle && hpc == words.length
  | .mainLoop _ => false

/-- A safe state: not in FAULT (R121). -/
def safeState (s : State) : Bool := s.mode != .fault

/-- Whether the main loop is waiting for a frame it issued (R137). -/
def inFrame : LoopPhase → Bool
  | .framing _ => true
  | .polling _ => false
  | .updating _ => false
  | .gameOver _ => false
  | .updated _ => false

/-- What every run keeps. -/
structure State.Inv (s : State) : Prop where
  /-- The playfield is in its canonical form. -/
  playfield_wf : Memory.wf s.pf = true
  /-- The playfield lists rows 0..7 only (R43). -/
  playfield_inRange : Memory.inRange s.pf = true
  /-- The tick counter is below the threshold between ticks (R136). -/
  tick_below : s.tickCount < s.params.gameDivN
  /-- FAULT is the mode exactly when a cause is recorded (R22, R130). -/
  fault_recorded : s.mode = .fault ↔ s.faultCause ≠ .none
  /-- ROW_RANGE and UNWRITTEN are never raised (R123, R124). -/
  unreachable_causes : s.faultCause ≠ .rowRange ∧ s.faultCause ≠ .unwritten
  /-- In IDLE the micro-op index is 0 (R19). -/
  idle_upc : s.mode = .idle → s.upc = 0
  /-- In BUSY `cmd` is a command word and `upc` is below the length of its list (R19, R20). -/
  busy_upc : s.mode = .busy → ∃ i, decode s.cmd = .ok i ∧ s.upc < (expand i).length
  /-- After a READ_ROW of the running command `colbyte` is written (R21). -/
  busy_colbyte : s.mode = .busy → ∀ i, decode s.cmd = .ok i →
    ((expand i).take s.upc).any MicroOp.readsRow = true → s.colbyte ≠ none
  /-- The caller's index is within its program (R148). -/
  caller_index : ∀ words hpc, s.caller = .program words hpc → hpc ≤ words.length
  /-- A command of the main loop is RENDER_FRAME, and no game update overlaps it (R49, R137). -/
  loop_frame : ∀ p, s.caller = .mainLoop p → s.mode = .busy → inFrame p = true ∧ s.cmd = 0x5000

end Sys2Proof.Machine
end

