-- ==== Sys2Proof/Certificates/Slice0/Obligations.lean ====
section
/-! DEFINITION. Certificates/Slice0/Obligations.lean: the statements about the model, by the files of the spec. -/

open Sys2Proof Sys2Proof.Machine

/-! ### Encoding (30_encoding.md) -/

/-- A few command words, written bit by bit from the patterns of R62, and five reserved ones with their grounds
(R63; 95, section 2.1). -/
def Obligations.SpecWordsDecode : Prop :=
  decode 0b0001000000000001#16 = .ok (.setData true) ∧ decode 0b0001010000000000#16 = .ok .clkLow
    ∧ decode 0b0001010000000001#16 = .ok .clkHigh ∧ decode 0b0001100000000000#16 = .ok .latchLow
    ∧ decode 0b0001100000000001#16 = .ok .latchHigh ∧ decode 0b0010000000000000#16 = .ok .waitD
    ∧ decode 0b0011000010100101#16 = .ok (.shiftByte 0xA5) ∧ decode 0b0100000000000111#16 = .ok (.renderRow 7)
    ∧ decode 0b0101000000000000#16 = .ok .renderFrame
    ∧ decode 0b0000000000000000#16 = .error .unassignedOpcode ∧ decode 0b0110000000000000#16 = .error .unassignedOpcode
    ∧ decode 0b0001110000000001#16 = .error .reservedLine ∧ decode 0b0010000000000001#16 = .error .reservedBits
    ∧ decode 0b0100000000001000#16 = .error .reservedBits

/-- Decoding the word of a well-formed command gives the command back, and the pseudo-instruction CLEAR_DATA gives
SET_DATA 0 (R57 to R61, R65, R68). -/
def Obligations.DecodeOfEncode : Prop :=
  ∀ i : Instr, i.wellFormed = true →
    decode (encode i) = .ok i.core ∧ (i ≠ .clearData → i.core = i) ∧ Instr.clearData.core = .setData false

/-- A word that decodes is the word of the command it decodes to, which is well-formed and is not the
pseudo-instruction: no bit of a command word is ignored (R64, R65). -/
def Obligations.EncodeOfDecode : Prop :=
  ∀ (w : Word) (i : Instr), decode w = .ok i → encode i = w ∧ i.wellFormed = true ∧ i ≠ .clearData

/-- No word matches two rows of the opcode map (R62). -/
def Obligations.OpcodeRowsDoNotOverlap : Prop :=
  ∀ w : Word, (opcodeMap.filter (fun r => r.accepts w)).length ≤ 1

/-- Exactly 272 words decode to a command (R65). -/
def Obligations.CommandWordsAreTwoHundredSeventyTwo : Prop :=
  ∃ words : List Word, words.Nodup ∧ words.length = 272 ∧ ∀ w, w ∈ words ↔ ∃ i, decode w = .ok i

/-- The words that do not decode are exactly the reserved ones, and issuing one faults, starts nothing and changes
no pin, chain or playfield state (R63). -/
def Obligations.ReservedWordsFault : Prop :=
  (∀ w : Word, ReservedWord w ↔ ∃ g, decode w = .error g)
    ∧ (∀ w : Word, ReservedWord w ↔ ∀ r ∈ opcodeMap, r.accepts w = false)
    ∧ ∀ (w : Word) (s : State), ReservedWord w →
        (issue w s).mode = .fault ∧ (s.faultCause = .none → (issue w s).faultCause = .reservedCommand)
          ∧ eventsOf (issue w s) = eventsOf s ++ [.fault .reservedCommand (some w)]
          ∧ (issue w s).cmd = s.cmd ∧ (issue w s).upc = s.upc
          ∧ (issue w s).pins = s.pins ∧ (issue w s).shiftS = s.shiftS ∧ (issue w s).outQ = s.outQ
          ∧ (issue w s).pf = s.pf

/-- The assembler. Each mnemonic with an operand in range names its command, CLEAR_DATA the pseudo-instruction; an operand
that is missing, superfluous or out of range is refused. A line of a mnemonic, or of a mnemonic and an operand, gives
the word of the command named, `.word` gives the raw word, a comment gives nothing, and a program is its lines' words
in order (R67, R68). -/
def Obligations.AssemblerNamesCommands : Prop :=
  (∀ n, commandNamed ['S', 'E', 'T', '_', 'D', 'A', 'T', 'A'] (some n) = if n ≤ 1 then some (.setData (n == 1)) else none)
    ∧ (∀ n, commandNamed ['S', 'H', 'I', 'F', 'T', '_', 'B', 'Y', 'T', 'E'] (some n)
        = if n ≤ 255 then some (.shiftByte (BitVec.ofNat 8 n)) else none)
    ∧ (∀ n, commandNamed ['R', 'E', 'N', 'D', 'E', 'R', '_', 'R', 'O', 'W'] (some n)
        = if n ≤ 7 then some (.renderRow n) else none)
    ∧ commandNamed ['C', 'L', 'E', 'A', 'R', '_', 'D', 'A', 'T', 'A'] none = some .clearData
    ∧ commandNamed ['C', 'L', 'K', '_', 'L', 'O', 'W'] none = some .clkLow
    ∧ commandNamed ['C', 'L', 'K', '_', 'H', 'I', 'G', 'H'] none = some .clkHigh
    ∧ commandNamed ['L', 'A', 'T', 'C', 'H', '_', 'L', 'O', 'W'] none = some .latchLow
    ∧ commandNamed ['L', 'A', 'T', 'C', 'H', '_', 'H', 'I', 'G', 'H'] none = some .latchHigh
    ∧ commandNamed ['W', 'A', 'I', 'T', '_', 'D'] none = some .waitD
    ∧ commandNamed ['R', 'E', 'N', 'D', 'E', 'R', '_', 'F', 'R', 'A', 'M', 'E'] none = some .renderFrame
    ∧ (∀ name ∈ [['S', 'E', 'T', '_', 'D', 'A', 'T', 'A'], ['S', 'H', 'I', 'F', 'T', '_', 'B', 'Y', 'T', 'E'],
        ['R', 'E', 'N', 'D', 'E', 'R', '_', 'R', 'O', 'W']], commandNamed name none = none)
    ∧ (∀ name ∈ [['C', 'L', 'E', 'A', 'R', '_', 'D', 'A', 'T', 'A'], ['C', 'L', 'K', '_', 'L', 'O', 'W'],
        ['C', 'L', 'K', '_', 'H', 'I', 'G', 'H'], ['L', 'A', 'T', 'C', 'H', '_', 'L', 'O', 'W'],
        ['L', 'A', 'T', 'C', 'H', '_', 'H', 'I', 'G', 'H'], ['W', 'A', 'I', 'T', '_', 'D'],
        ['R', 'E', 'N', 'D', 'E', 'R', '_', 'F', 'R', 'A', 'M', 'E']], ∀ n, commandNamed name (some n) = none)
    ∧ encode .clearData = encode (.setData false)
    ∧ (∀ n, rawWord n = if n ≤ 0xFFFF then some (BitVec.ofNat 16 n) else none)
    ∧ (∀ name, IsToken name → assembleLine name = (commandNamed name none).map (fun i => [encode i]))
    ∧ (∀ name operand, IsToken name → IsToken operand → name ≠ ['.', 'w', 'o', 'r', 'd'] →
        assembleLine (name ++ ' ' :: operand)
          = (numberOf operand).bind (fun n => (commandNamed name (some n)).map (fun i => [encode i])))
    ∧ (∀ operand, IsToken operand →
        assembleLine ('.' :: 'w' :: 'o' :: 'r' :: 'd' :: ' ' :: operand)
          = (numberOf operand).bind (fun n => (rawWord n).map (fun w => [w])))
    ∧ (∀ line comment, ';' ∉ line → assembleLine (line ++ ';' :: comment) = assembleLine line)
    ∧ assemble [] = some []
    ∧ ∀ line rest ws more, assembleLine line = some ws → assemble rest = some more →
        assemble (line :: rest) = some (ws ++ more)

/-- The length of every command's micro-op list (R72), and the WAITs and pin micro-ops in the longer ones: 32 WAITs a
byte, 68 WAITs and 66 pin micro-ops a row, 544 WAITs a frame (R96, R108, R168). -/
def Obligations.ExpansionLengths : Prop :=
  (∀ v, (expand (.setData v)).length = 1) ∧ (expand .clkLow).length = 1 ∧ (expand .clkHigh).length = 1
    ∧ (expand .latchLow).length = 1 ∧ (expand .latchHigh).length = 1 ∧ (expand .waitD).length = 1
    ∧ (expand .clearData).length = 1 ∧ (∀ b, (expand (.shiftByte b)).length = 64)
    ∧ (∀ j, (expand (.renderRow j)).length = 135) ∧ (expand .renderFrame).length = 1080
    ∧ (∀ b, waitCount (expand (.shiftByte b)) = 32)
    ∧ (∀ j, waitCount (expand (.renderRow j)) = 68 ∧ (expand (.renderRow j)).countP MicroOp.writesLine = 66)
    ∧ waitCount (expand .renderFrame) = 544

/-- Entry t of a byte's list is entry `t mod 8` of bit `t div 8`, and entry f of a frame's is entry `f mod 135` of row
`f div 135` (R96, R114). -/
def Obligations.SequenceEntries : Prop :=
  (∀ (src : ByteSource) (t : Nat) (h : t < 64),
      (shiftSeq src)[t]? = (bitSeq src ⟨t / 8, by omega⟩)[t % 8]?)
    ∧ ∀ f < 1080, frameSeq[f]? = (rowSeq (f / 135))[f % 135]?

/-! ### The micro-op step and the issue of a command (R55, R71) -/

/-- A step of the main context in BUSY is `exec` of the command that `cmd` decodes to, with the turn taken off the
schedule. -/
def Obligations.StepRunsDecodedCommand : Prop :=
  ∀ (s : State) (i : Instr), s.mode = .busy → decode s.cmd = .ok i → MainNext s →
    step s = exec i (afterTurn s)

/-- The caller in IDLE issues its next word: a command word is held in `cmd`, `upc` is 0 and the mode is BUSY (R55,
R148). With no word left it issues nothing and the block waits in IDLE (R149, R152). -/
def Obligations.CallerIssuesNextWord : Prop :=
  ∀ (s : State) (words : List Word) (hpc : Nat), s.mode = .idle → MainNext s → s.caller = .program words hpc →
    (∀ (w : Word) (i : Instr), words[hpc]? = some w → decode w = .ok i →
      step s = .next { s with
        sched := s.sched.tail, caller := .program words (hpc + 1), cmd := w, upc := 0, mode := .busy })
      ∧ (words.length ≤ hpc → step s = .next (afterTurn s))

/-- The caller in IDLE whose next word is reserved takes the fault RESERVED_COMMAND with that word, `hpc` having moved
on; `cmd` and `upc` stay (R122, R127). -/
def Obligations.ReservedWordFaultsAtIssue : Prop :=
  ∀ (s : State) (words : List Word) (hpc : Nat) (w : Word) (g : Reserved),
    s.mode = .idle → MainNext s → s.faultCause = .none → s.caller = .program words hpc → words[hpc]? = some w →
    decode w = .error g →
      step s = .next { s with
        sched := s.sched.tail
        caller := .program words (hpc + 1)
        mode := .fault
        faultCause := .reservedCommand
        trace := s.trace ++ [⟨stampNow s, .fault .reservedCommand (some w)⟩] }

/-- One micro-op step, for every command: the micro-op at `upc`, then, unless it faulted, the advance by one or the
command's end (R71). -/
def Obligations.MicroOpStep : Prop :=
  ∀ (i : Instr) (s : State) (op : MicroOp), s.mode = .busy → (expand i)[s.upc]? = some op →
    exec i s = .next (
      let p := perform op s
      if p.mode = .busy then
        if p.upc + 1 = (expand i).length then
          { p with mode := .idle, upc := 0, trace := p.trace ++ [⟨stampNow p, .done p.cmd⟩] }
        else { p with upc := p.upc + 1 }
      else p)

/-- Every micro-op step of every command answers a next state without fault, whatever the lines and the chain hold,
when the step's own checks are met: the row in range, `colbyte` written, the delay kept (R126, R133). `upc` moves on by
one, or the command ends with `Done`. -/
def Obligations.EveryMicroOpCompletes : Prop :=
  ∀ (i : Instr) (s : State), s.mode = .busy → s.upc < (expand i).length →
    (∀ j, (expand i)[s.upc]? = some (.readRow j) → j ≤ 7) →
    (∀ k, (expand i)[s.upc]? = some (.dataCol k) → s.colbyte ≠ none) →
    ((expand i)[s.upc]? = some .wait → s.timed = true → s.params.delayD ≤ drawAt s 0) →
      ∃ t, exec i s = .next t ∧ t.faultCause = s.faultCause ∧ t.cmd = s.cmd
        ∧ ((s.upc + 1 < (expand i).length ∧ t.mode = .busy ∧ t.upc = s.upc + 1)
          ∨ (s.upc + 1 = (expand i).length ∧ t.mode = .idle ∧ t.upc = 0
              ∧ ∃ es, eventsOf t = eventsOf s ++ es ++ [.done s.cmd]))

/-! ### Pin commands, the delay and the chain (41_pin_primitives.md) -/

/-- SET_DATA v, for both levels and from every level (R83). -/
def Obligations.SetDataDrivesData : Prop :=
  (∀ v : Bit, encode (.setData v) = 0x1000#16 ||| (BitVec.ofBool v).setWidth 16)
    ∧ ∀ (v : Bit) (s : State), Started s →
        exec (.setData v) s
          = .next (commandEnded s { s.pins with data := v } s.shiftS s.outQ [.pin .data s.pins.data v])

/-- CLK_LOW: CLOCK is 0 afterwards and the chain is unchanged (R82). -/
def Obligations.ClkLowDrivesClockLow : Prop :=
  encode .clkLow = 0x1400#16
    ∧ ∀ s : State, Started s →
        exec .clkLow s
          = .next (commandEnded s { s.pins with clock := false } s.shiftS s.outQ [.pin .clock s.pins.clock false])

/-- CLK_HIGH: CLOCK is 1 afterwards, and the chain has shifted DATA in when CLOCK was 0 (R84). -/
def Obligations.ClkHighShiftsOnRise : Prop :=
  encode .clkHigh = 0x1401#16
    ∧ ∀ s : State, Started s →
        exec .clkHigh s
          = .next (commandEnded s { s.pins with clock := true }
              (if s.pins.clock then s.shiftS else shiftIn (some s.pins.data) s.shiftS) s.outQ
              ([.pin .clock s.pins.clock true] ++ if s.pins.clock then [] else [.shift s.pins.data]))

/-- CLEAR_DATA: the word of SET_DATA 0 and its effect, DATA being 0 afterwards (R68, R85). -/
def Obligations.ClearDataDrivesDataLow : Prop :=
  encode .clearData = 0x1000#16 ∧ decode (encode .clearData) = .ok (.setData false)
    ∧ ∀ s : State, Started s →
        exec .clearData s = exec (.setData false) s
          ∧ exec .clearData s
              = .next (commandEnded s { s.pins with data := false } s.shiftS s.outQ [.pin .data s.pins.data false])

/-- LATCH_LOW: LATCH is 0 afterwards and neither S nor Q changes (R87). -/
def Obligations.LatchLowDrivesLatchLow : Prop :=
  encode .latchLow = 0x1800#16
    ∧ ∀ s : State, Started s →
        exec .latchLow s
          = .next (commandEnded s { s.pins with latch := false } s.shiftS s.outQ [.pin .latch s.pins.latch false])

/-- LATCH_HIGH: LATCH is 1 afterwards, and Q is S, ⊥ stages and all, when LATCH was 0 (R88). -/
def Obligations.LatchHighCopiesOnRise : Prop :=
  encode .latchHigh = 0x1801#16
    ∧ ∀ s : State, Started s →
        exec .latchHigh s
          = .next (commandEnded s { s.pins with latch := true } s.shiftS
              (if s.pins.latch then s.outQ else s.shiftS)
              ([.pin .latch s.pins.latch true] ++ if s.pins.latch then [] else [.latch s.shiftS]))

/-- WAIT_D completes with only time spent when its delay is kept (R89). -/
def Obligations.WaitDCompletes : Prop :=
  encode .waitD = 0x2000#16
    ∧ ∀ s : State, Started s → WaitsKept (expand .waitD) s →
        exec .waitD s = .next (commandEnded s s.pins s.shiftS s.outQ [])
          ∧ (s.timed = true → s.now + s.params.delayD ≤ (spend s).now) ∧ (s.timed = false → (spend s).now = s.now)

/-- The WAIT micro-op: nothing in the untimed semantics; in the timed one the drawn duration passes, and a draw below
DELAY_D raises TIMING in place of advancing (R86, R132). That a WAIT drawn short lets its duration pass before it faults
is the model's reading, log entry 15. -/
def Obligations.WaitContract : Prop :=
  (∀ s : State, s.timed = false → perform .wait s = s)
    ∧ (∀ s : State, s.timed = true → (perform .wait s).now = s.now + drawAt s 0)
    ∧ (∀ s : State, s.timed = true → s.params.delayD ≤ drawAt s 0 →
        (perform .wait s).mode = s.mode ∧ (perform .wait s).faultCause = s.faultCause
          ∧ (perform .wait s).trace = s.trace)
    ∧ (∀ s : State, s.timed = true → drawAt s 0 < s.params.delayD → s.faultCause = .none →
        (perform .wait s).mode = .fault ∧ (perform .wait s).faultCause = .timing
          ∧ eventsOf (perform .wait s) = eventsOf s ++ [.fault .timing none])
    ∧ ∀ (i : Instr) (s : State), s.mode = .busy → (expand i)[s.upc]? = some .wait → s.timed = true →
        drawAt s 0 < s.params.delayD → exec i s = .next (perform .wait s)

/-- PIN(L, v): the line, its event and, on a rising edge of CLOCK or LATCH, the chain's answer, with only the micro-op's
duration besides; a write of the level the line has makes no edge (R75, R79, R90). -/
def Obligations.PinWritesOneLine : Prop :=
  ∀ (l : Line) (v : Bit) (s : State),
    perform (.pin l v) s = spend
      (let written : State :=
        { s with
          pins := { data := if l = .data then v else s.pins.data
                    clock := if l = .clock then v else s.pins.clock
                    latch := if l = .latch then v else s.pins.latch }
          trace := s.trace ++ [⟨stampNow s, .pin l (lineLevel s.pins l) v⟩] }
       if l = .clock ∧ s.pins.clock = false ∧ v = true then clockRise written
       else if l = .latch ∧ s.pins.latch = false ∧ v = true then latchRise written
       else written)

/-- The chain's answers. A CLOCK rising edge: stage k takes stage k-1's old value, stage 0 the sampled DATA level, and
`Shift` is emitted (R80). A LATCH rising edge: every output stage takes its shift stage's value at once, `Latch` carries
the new Q, and the row and column lines are the views of it (R29, R81). -/
def Obligations.ChainAnswersEdges : Prop :=
  ∀ s : State,
    (clockRise s).shiftS[0] = some s.pins.data
      ∧ (∀ k (h : k < 15), (clockRise s).shiftS[k + 1] = s.shiftS[k])
      ∧ clockRise s = { s with
          shiftS := (clockRise s).shiftS, trace := s.trace ++ [⟨stampNow s, .shift s.pins.data⟩] }
      ∧ (∀ k (h : k < 16), (latchRise s).outQ[k] = s.shiftS[k])
      ∧ latchRise s = { s with
          outQ := (latchRise s).outQ, trace := s.trace ++ [⟨stampNow s, .latch (latchRise s).outQ⟩] }
      ∧ ∀ i (h : i < 8), rowOut (latchRise s).outQ ⟨i, h⟩ = s.shiftS[15 - i]
          ∧ colOut (latchRise s).outQ ⟨i, h⟩ = s.shiftS[7 - i]

/-- Over every step of every agent but reset: S changes only at a CLOCK rising edge, Q only at a LATCH rising edge, to
S, and never both (R31, R76, R77). -/
def Obligations.OnlyRisingEdgesChangeChain : Prop :=
  ∀ s t : State, NoResetNext s → step s = .next t →
    (t.shiftS ≠ s.shiftS →
        s.pins.clock = false ∧ t.pins.clock = true ∧ t.outQ = s.outQ
          ∧ t.shiftS = shiftIn (some s.pins.data) s.shiftS ∧ .shift s.pins.data ∈ (eventsOf t).drop s.trace.length)
      ∧ (t.outQ ≠ s.outQ →
        s.pins.latch = false ∧ t.pins.latch = true ∧ t.shiftS = s.shiftS
          ∧ t.outQ = s.shiftS ∧ .latch s.shiftS ∈ (eventsOf t).drop s.trace.length)

/-- The four pin commands of one bit, from any lines and chain, with or without WAIT_D between them: one CLOCK rising
edge at which DATA is b, no LATCH edge, DATA 0 and CLOCK 1 at the end (R91). -/
def Obligations.FourPinCommandsShiftOneBit : Prop :=
  ∀ (b : Bit) (s : State), s.mode = .idle →
    (∃ t, runCommands [.clkLow, .setData b, .clkHigh, .clearData] s = .next t
      ∧ t.mode = .idle ∧ t.shiftS = shiftIn (some b) s.shiftS ∧ t.outQ = s.outQ ∧ t.pins = ⟨false, true, s.pins.latch⟩
      ∧ shiftEvents (eventsOf t) = shiftEvents (eventsOf s) ++ [b]
      ∧ latchEvents (eventsOf t) = latchEvents (eventsOf s))
    ∧ ((s.timed = true → ∀ k < 4, s.params.delayD ≤ drawAt s (2 * k + 1)) → ∃ t,
      runCommands [.clkLow, .waitD, .setData b, .waitD, .clkHigh, .waitD, .clearData, .waitD] s = .next t
      ∧ t.mode = .idle ∧ t.shiftS = shiftIn (some b) s.shiftS ∧ t.outQ = s.outQ ∧ t.pins = ⟨false, true, s.pins.latch⟩
      ∧ shiftEvents (eventsOf t) = shiftEvents (eventsOf s) ++ [b]
      ∧ latchEvents (eventsOf t) = latchEvents (eventsOf s))

/-- From a chain that is all ⊥, after the bits of a list of at most 16 the stages below its length hold them, the last
one sent at stage 0, and every stage above is still ⊥ (R80, R153). -/
def Obligations.UnshiftedStagesStayUnknown : Prop :=
  ∀ bits : List Bit, bits.length ≤ 16 → ∀ k (h : k < 16),
    (bits.foldl (fun q b => shiftIn (some b) q) (Vector.replicate 16 none))[k] = bits.reverse[k]?

/-- Of the commands of 41_pin_primitives.md and SHIFT_BYTE, a next state at any point of the command changes, of lines,
chain and `colbyte`, only what the spec names for the command, and nothing of the environment (R41, R76, R97). -/
def Obligations.PinAndByteCommandFrames : Prop :=
  ∀ s t : State,
    ((∃ v, exec (.setData v) s = .next t) ∨ exec .clearData s = .next t →
        EnvironmentKept s t ∧ t.colbyte = s.colbyte ∧ t.faultCause = s.faultCause ∧ t.shiftS = s.shiftS ∧ t.outQ = s.outQ
          ∧ t.pins.clock = s.pins.clock ∧ t.pins.latch = s.pins.latch)
      ∧ (exec .clkLow s = .next t →
        EnvironmentKept s t ∧ t.colbyte = s.colbyte ∧ t.faultCause = s.faultCause ∧ t.shiftS = s.shiftS ∧ t.outQ = s.outQ
          ∧ t.pins.data = s.pins.data ∧ t.pins.latch = s.pins.latch)
      ∧ (exec .clkHigh s = .next t →
        EnvironmentKept s t ∧ t.colbyte = s.colbyte ∧ t.faultCause = s.faultCause ∧ t.outQ = s.outQ
          ∧ t.pins.data = s.pins.data ∧ t.pins.latch = s.pins.latch)
      ∧ (exec .latchLow s = .next t →
        EnvironmentKept s t ∧ t.colbyte = s.colbyte ∧ t.faultCause = s.faultCause ∧ t.shiftS = s.shiftS ∧ t.outQ = s.outQ
          ∧ t.pins.data = s.pins.data ∧ t.pins.clock = s.pins.clock)
      ∧ (exec .latchHigh s = .next t →
        EnvironmentKept s t ∧ t.colbyte = s.colbyte ∧ t.faultCause = s.faultCause ∧ t.shiftS = s.shiftS
          ∧ t.pins.data = s.pins.data ∧ t.pins.clock = s.pins.clock)
      ∧ (exec .waitD s = .next t →
        EnvironmentKept s t ∧ t.colbyte = s.colbyte ∧ t.shiftS = s.shiftS ∧ t.outQ = s.outQ ∧ t.pins = s.pins)
      ∧ ∀ b, exec (.shiftByte b) s = .next t →
        EnvironmentKept s t ∧ t.colbyte = s.colbyte ∧ t.outQ = s.outQ ∧ t.pins.latch = s.pins.latch

/-- Every command, RENDER_ROW and RENDER_FRAME among them, leaves its own word, every playfield row, the scheduler's
state, the caller, the schedule and the parameters as they were, whether or not it faults (R20, R33, R42, R119). -/
def Obligations.CommandsKeepEnvironment : Prop :=
  ∀ (i : Instr) (s t : State), exec i s = .next t → EnvironmentKept s t

/-! ### The 8-bit shift (42_shift_byte.md) -/

/-- SHIFT_BYTE b, from any lines and chain: `S' = S[7:0] : rev8(b)`, eight `Shift` events with the bits of b from bit 0,
Q and LATCH unchanged, DATA 0 and CLOCK 1 at the end; and its last micro-op step answers that state (R97, R98). -/
def Obligations.ShiftByteResult : Prop :=
  ∀ (b : Byte) (s : State), Started s → WaitsKept (expand (.shiftByte b)) s →
    ∃ u t, execFor (.shiftByte b) 63 s = .next u ∧ exec (.shiftByte b) u = .next t
      ∧ execAll (.shiftByte b) s = .next t ∧ t.mode = .idle ∧ t.upc = 0
      ∧ (∀ k (h : k < 8), t.shiftS[7 - k] = some (bitOf b ⟨k, h⟩))
      ∧ (∀ k (h : k < 8), t.shiftS[8 + k] = s.shiftS[k])
      ∧ t.outQ = s.outQ ∧ t.pins = ⟨false, true, s.pins.latch⟩
      ∧ shiftEvents (eventsOf t) = shiftEvents (eventsOf s) ++ sentBits b
      ∧ latchEvents (eventsOf t) = latchEvents (eventsOf s)
      ∧ t.colbyte = s.colbyte ∧ t.faultCause = s.faultCause ∧ EnvironmentKept s t

/-- The byte sequence itself, of a byte fixed by the command and of the byte in `colbyte`, from any lines and chain
(R98). -/
def Obligations.ShiftSequenceResult : Prop :=
  ∀ (src : ByteSource) (b : Byte) (s : State), src = .const b ∨ (src = .col ∧ s.colbyte = some b) →
    WaitsKept (shiftSeq src) s →
      let t := (shiftSeq src).foldl (fun s op => perform op s) s
      (∀ k (h : k < 8), t.shiftS[7 - k] = some (bitOf b ⟨k, h⟩))
        ∧ (∀ k (h : k < 8), t.shiftS[8 + k] = s.shiftS[k])
        ∧ shiftEvents (eventsOf t) = shiftEvents (eventsOf s) ++ sentBits b
        ∧ t.outQ = s.outQ ∧ (∀ i, rowOut t.outQ i = rowOut s.outQ i ∧ colOut t.outQ i = colOut s.outQ i)
        ∧ t.pins = ⟨false, true, s.pins.latch⟩

/-- The events of SHIFT_BYTE b in order: for each bit the four pin writes with the shift after the third, then `Done`;
32 `Pin` and 8 `Shift` events (R100). -/
def Obligations.ShiftByteEvents : Prop :=
  ∀ (b : Byte) (s : State), Started s → WaitsKept (expand (.shiftByte b)) s →
    ∃ t, execAll (.shiftByte b) s = .next t ∧ eventsOf t = eventsOf s ++ byteEvents s.pins b ++ [.done s.cmd]
      ∧ (pinEvents (byteEvents s.pins b)).length = 32 ∧ (shiftEvents (byteEvents s.pins b)).length = 8

/-! ### Rows and frames (43_render.md) -/

/-- The row-select byte: bit j is 0 and the other seven are 1, and reversed it is that of row 7-j (R105, R107). -/
def Obligations.RowSelectBytes : Prop :=
  (∀ j i : Fin 8, bitOf (rowsel j.val) i = decide (i ≠ j))
    ∧ (∀ j : Fin 8, rev8 (rowsel j.val) = rowsel (7 - j.val))
    ∧ (List.range 8).map rowsel = [0xFE, 0xFD, 0xFB, 0xF7, 0xEF, 0xDF, 0xBF, 0x7F]

/-- READ_ROW(j): one read of the row into `colbyte` with its event, and ROW_RANGE for an index above 7, nothing being
read: a RENDER_ROW of such an index, which no word encodes, stops at its READ_ROW (R109, R123). The stamp of the read's
event, the time at the start of the step, is the model's reading, log entry 18; that one that faults takes no time is the
model's choice, log entry 30. -/
def Obligations.ReadRowReadsPlayfield : Prop :=
  (∀ (j : Nat) (s : State), j ≤ 7 →
      perform (.readRow j) s = spend { s with
        colbyte := some (Memory.read s.pf j)
        trace := s.trace ++ [⟨stampNow s, .read j (Memory.read s.pf j)⟩] })
    ∧ (∀ (j : Nat) (s : State), 7 < j → s.faultCause = .none →
      perform (.readRow j) s = { s with
        mode := .fault, faultCause := .rowRange, trace := s.trace ++ [⟨stampNow s, .fault .rowRange none⟩] })
    ∧ ∀ (j : Nat) (s : State), 7 < j → s.mode = .busy → s.upc = 67 → s.faultCause = .none →
      exec (.renderRow j) s = .next { s with
        mode := .fault, faultCause := .rowRange, trace := s.trace ++ [⟨stampNow s, .fault .rowRange none⟩] }

/-- DATA_COL(i): DATA is driven to bit i of `colbyte`, and UNWRITTEN is raised where it is unwritten, no pin having
changed (R110, R124). That a DATA_COL that faults takes no time is the model's choice, log entry 30. -/
def Obligations.DataColDrivesColumnBit : Prop :=
  (∀ (i : Fin 8) (b : Byte) (s : State), s.colbyte = some b →
      perform (.dataCol i) s = perform (.pin .data (bitOf b i)) s)
    ∧ ∀ (i : Fin 8) (s : State), s.colbyte = none → s.faultCause = .none →
      perform (.dataCol i) s = { s with
        mode := .fault, faultCause := .unwritten, trace := s.trace ++ [⟨stampNow s, .fault .unwritten none⟩] }

/-- RENDER_ROW j with column byte `c = PF[j]`, from any lines and chain: 16 `Shift` events and one `Latch`, S = Q =
`rev8(rowsel(j)) : rev8(c)`, `RowOut = rowsel(j)`, `ColOut = c`, `colbyte = c`, lines (0, 1, 1) (R111, R112). -/
def Obligations.RenderRowResult : Prop :=
  ∀ (j : Nat) (s : State), j ≤ 7 → Started s → WaitsKept (expand (.renderRow j)) s →
    ∃ u t, execFor (.renderRow j) 134 s = .next u ∧ exec (.renderRow j) u = .next t
      ∧ execAll (.renderRow j) s = .next t ∧ t.mode = .idle ∧ t.upc = 0
      ∧ t.shiftS = rowImage j (Memory.read s.pf j) ∧ t.outQ = t.shiftS
      ∧ (∀ i, rowOut t.outQ i = some (bitOf (rowsel j) i) ∧ colOut t.outQ i = some (bitOf (Memory.read s.pf j) i))
      ∧ t.colbyte = some (Memory.read s.pf j) ∧ t.pins = ⟨false, true, true⟩
      ∧ shiftEvents (eventsOf t)
          = shiftEvents (eventsOf s) ++ sentBits (rowsel j) ++ sentBits (Memory.read s.pf j)
      ∧ latchEvents (eventsOf t) = latchEvents (eventsOf s) ++ [rowImage j (Memory.read s.pf j)]
      ∧ readEvents (eventsOf t) = readEvents (eventsOf s) ++ [(j, Memory.read s.pf j)]
      ∧ t.faultCause = s.faultCause ∧ EnvironmentKept s t

/-- After a RENDER_ROW j the matrix has row j alone selected, and cell (x, j) is lit exactly where bit x of the
playfield row is set: the displayed image, with the chain's timing premise (R30, R112, R164). -/
def Obligations.RenderRowShowsPlayfieldRow : Prop :=
  ∀ (j : Nat) (s : State), j ≤ 7 → ChainTimingOK s.params → Started s → WaitsKept (expand (.renderRow j)) s →
    ∃ t, execAll (.renderRow j) s = .next t
      ∧ (∀ y, selected t.outQ y = some (decide (y.val = j)))
      ∧ ∀ x y, lit t.outQ x y = some (decide (y.val = j) && bitOf (Memory.read s.pf j) x)

/-- RENDER_FRAME, from any lines and chain: the eight rows are read and latched in order, each once, with 128 `Shift` and
528 `Pin` events; S, Q and `colbyte` are row 7's at the end, and the lines are (0, 1, 1) (R103, R114, R115). -/
def Obligations.RenderFrameResult : Prop :=
  ∀ s : State, Started s → WaitsKept (expand .renderFrame) s →
    ∃ u t, execFor .renderFrame 1079 s = .next u ∧ exec .renderFrame u = .next t
      ∧ execAll .renderFrame s = .next t ∧ t.mode = .idle ∧ t.upc = 0
      ∧ latchEvents (eventsOf t)
          = latchEvents (eventsOf s) ++ (List.range 8).map (fun j => rowImage j (Memory.read s.pf j))
      ∧ readEvents (eventsOf t) = readEvents (eventsOf s) ++ (List.range 8).map (fun j => (j, Memory.read s.pf j))
      ∧ (shiftEvents (eventsOf t)).length = (shiftEvents (eventsOf s)).length + 128
      ∧ (pinEvents (eventsOf t)).length = (pinEvents (eventsOf s)).length + 528
      ∧ t.shiftS = rowImage 7 (Memory.read s.pf 7) ∧ t.outQ = rowImage 7 (Memory.read s.pf 7)
      ∧ t.colbyte = some (Memory.read s.pf 7) ∧ t.pins = ⟨false, true, true⟩
      ∧ t.faultCause = s.faultCause ∧ EnvironmentKept s t

/-! ### Faults (60_exceptions.md) -/

/-- `raise Fault(c)`: the first cause is kept, the mode is FAULT, the trace gains the event, and nothing else changes
(R130). -/
def Obligations.RaiseKeepsFirstCause : Prop :=
  ∀ (c : FaultCause) (w : Option Word) (s : State),
    (raise c w s).mode = .fault
      ∧ (s.faultCause = .none → (raise c w s).faultCause = c)
      ∧ (s.faultCause ≠ .none → (raise c w s).faultCause = s.faultCause)
      ∧ raise c w s = { s with
          mode := .fault, faultCause := (raise c w s).faultCause, trace := s.trace ++ [⟨stampNow s, .fault c w⟩] }

/-- A command that faults does so precisely: lines, chain, `colbyte`, playfield, `cmd` and `upc` are as the micro-op
found them, and the trace gains the fault event alone (R127, R128). -/
def Obligations.FaultsArePrecise : Prop :=
  ∀ (i : Instr) (s t : State), exec i s = .next t → t.mode = .fault →
    t.pins = s.pins ∧ t.shiftS = s.shiftS ∧ t.outQ = s.outQ ∧ t.colbyte = s.colbyte ∧ t.pf = s.pf
      ∧ t.cmd = s.cmd ∧ t.upc = s.upc ∧ ∃ c, eventsOf t = eventsOf s ++ [.fault c none]

/-- In FAULT the main context takes no step, the other agents leave it there, and only a reset leaves it, after which
the mode is IDLE; a recorded cause stays until a reset (R22, R131). -/
def Obligations.OnlyResetLeavesFault : Prop :=
  (∀ s : State, s.mode = .fault → MainNext s → step s = .fault (.blockFaulted s.faultCause))
    ∧ (∀ s t : State, s.mode = .fault → NoResetNext s → step s = .next t → t.mode = .fault)
    ∧ (∀ s t : State, NoResetNext s → step s = .next t → s.faultCause ≠ .none → t.faultCause = s.faultCause)
    ∧ ∀ (s : State) (u : Bool) (p : Pins) (rest : List Turn), s.sched = .reset u p :: rest →
        ∃ t, step s = .next t ∧ t.mode = .idle ∧ t.faultCause = .none

/-- A step that enters FAULT does so on one of the four grounds and no other: a reserved word at issue, a READ_ROW above
7, a DATA_COL of an unwritten `colbyte`, or a short WAIT in the timed semantics; the cause recorded is that ground's
(R121, R125, R133). -/
def Obligations.FaultsHaveFourGrounds : Prop :=
  ∀ s t : State, step s = .next t → s.mode ≠ .fault → t.mode = .fault → s.faultCause = .none →
    (s.mode = .idle ∧ t.faultCause = .reservedCommand
        ∧ ∃ words hpc w g, s.caller = .program words hpc ∧ words[hpc]? = some w ∧ decode w = .error g)
      ∨ ∃ i, s.mode = .busy ∧ decode s.cmd = .ok i
          ∧ ((∃ j, 7 < j ∧ (expand i)[s.upc]? = some (.readRow j) ∧ t.faultCause = .rowRange)
            ∨ (∃ k, s.colbyte = none ∧ (expand i)[s.upc]? = some (.dataCol k) ∧ t.faultCause = .unwritten)
            ∨ ((expand i)[s.upc]? = some .wait ∧ s.timed = true ∧ drawAt s 0 < s.params.delayD
                ∧ t.faultCause = .timing))

/-! ### Who writes what (10_state.md, 20_memory.md) -/

/-- Over every step but a reset, `colbyte` changes only at a READ_ROW, to the row read (R21). -/
def Obligations.OnlyReadRowWritesColbyte : Prop :=
  ∀ s t : State, NoResetNext s → step s = .next t → t.colbyte ≠ s.colbyte →
    ∃ i j, s.mode = .busy ∧ decode s.cmd = .ok i ∧ (expand i)[s.upc]? = some (.readRow j)
      ∧ t.colbyte = some (Memory.read s.pf j)

/-- Over every step, the playfield changes only in a write of game logic or in a game update of the main loop in IDLE,
never in a step of the block (R32, R49, R119). -/
def Obligations.OnlyGameLogicWritesPlayfield : Prop :=
  ∀ s t : State, step s = .next t → t.pf ≠ s.pf →
    (∃ j v rest, s.sched = .writeRow j v :: rest)
      ∨ (s.mode = .idle ∧ MainNext s ∧ ∃ rest, s.caller = .mainLoop (.updating rest) ∨ s.caller = .mainLoop (.gameOver rest))

/-- A row written by game logic reads as written, every other row as before, in a playfield that keeps its canonical form
and its range, and nothing else but the schedule changes: each later READ_ROW reads the playfield as it stands
(R40, R43, R165). -/
def Obligations.PlayfieldWriteReadsBack : Prop :=
  ∀ (s : State) (j : Fin 8) (v : Byte) (rest : List Turn), Memory.wf s.pf = true → s.sched = .writeRow j v :: rest →
    ∃ t, step s = .next t ∧ Memory.read t.pf j.val = v ∧ (∀ k, k ≠ j.val → Memory.read t.pf k = Memory.read s.pf k)
      ∧ Memory.wf t.pf = true ∧ (Memory.inRange s.pf = true → Memory.inRange t.pf = true)
      ∧ t = { s with sched := rest, pf := t.pf }

/-- Over every step but a reset the trace only grows (R34), and no step changes the parameters or which semantics runs
(R25). -/
def Obligations.TraceGrowsParametersStay : Prop :=
  ∀ s t : State, step s = .next t →
    (NoResetNext s → s.trace <+: t.trace ∧ s.now ≤ t.now) ∧ t.params = s.params ∧ t.timed = s.timed

/-! ### Interrupts and the main loop (60_exceptions.md) -/

/-- The timer handler's step in the untimed semantics, and in the timed one when its tick is due: both flags and the
counter as R136 says and nothing else of the model's state but when the next tick is due; before it is due, nothing. -/
def Obligations.TimerHandlerStep : Prop :=
  ∀ (s : State) (rest : List Turn), s.sched = .timer :: rest →
    (s.timed = false ∨ s.tickDue ≤ s.now →
      step s = .next { s with
        sched := rest
        needsRepaint := true
        tickCount := if s.tickCount + 1 = s.params.gameDivN then 0 else s.tickCount + 1
        needsGameUpdate := if s.tickCount + 1 = s.params.gameDivN then true else s.needsGameUpdate
        tickDue := if s.timed then s.tickDue + s.params.tickT else s.tickDue })
      ∧ (s.timed = true → s.now < s.tickDue → step s = .next { s with sched := rest })

/-- n ticks with no service between them from a counter at 0: one pending request of each kind, the counter at
`n mod N`, a game update requested after N of them (R136, R138). -/
def Obligations.TicksCoalesce : Prop :=
  ∀ (n : Nat) (s : State), s.tickCount = 0 →
    let t := timerHandler^[n] s
    t.tickCount = n % s.params.gameDivN
      ∧ t.needsRepaint = (s.needsRepaint || decide (0 < n))
      ∧ t.needsGameUpdate = (s.needsGameUpdate || decide (s.params.gameDivN ≤ n))

/-- A turn of the timer handler, of the serial handler or of time passing changes no block, chain or playfield state, no
event and not where the caller stands; and the block goes on at the same `upc` (R48, R134, R135). -/
def Obligations.HandlersTouchNoBlockState : Prop :=
  ∀ (s : State) (h : Turn) (rest : List Turn), h.isHandler = true → s.sched = h :: rest →
    ∃ t, step s = .next t ∧ blockView t = blockView s ∧ t.trace = s.trace ∧ t.sched = rest
      ∧ t.params = s.params ∧ t.timed = s.timed ∧ t.draws = s.draws

/-- Whatever handler turns stand between the main context's turns of a schedule, a caller program's run reaches the same
block, chain and playfield state with the same events as with no handler at all (R48, R166; 95, vector S3). -/
def Obligations.InterleavingChangesNoValue : Prop :=
  ∀ (turns : List Turn) (s : State), s.timed = false → (∃ words hpc, s.caller = .program words hpc) →
    (∀ t ∈ turns, t = .main ∨ t.isHandler = true) →
      viewOutcome blockView (runSteps turns.length { s with sched := turns })
        = viewOutcome blockView (runSteps (turns.count .main) { s with sched := [] })

/-- A new pass of the main loop looks at both flags, each once, in one of the two orders. The main loop that finds
`needsRepaint` set issues RENDER_FRAME; when the frame has ended it clears the flag; and it issues nothing when the flag
is clear. In each case nothing else changes but the turn taken (R137). -/
def Obligations.MainLoopServicesRepaint : Prop :=
  ∀ (s : State) (rest : List Service), s.mode = .idle → MainNext s →
    (s.caller = .mainLoop (.polling []) → ∃ order, (order = [.gameUpdate, .repaint] ∨ order = [.repaint, .gameUpdate])
        ∧ step s = .next { s with
            sched := s.sched.tail, caller := .mainLoop (.polling order), freeIndex := s.freeIndex + 1 })
      ∧ (s.caller = .mainLoop (.polling (.repaint :: rest)) → s.needsRepaint = true →
        step s = .next { s with
          sched := s.sched.tail, cmd := 0x5000, upc := 0, mode := .busy, caller := .mainLoop (.framing rest) })
      ∧ (s.caller = .mainLoop (.framing rest) →
        step s = .next { s with sched := s.sched.tail, needsRepaint := false, caller := .mainLoop (.polling rest) })
      ∧ (s.caller = .mainLoop (.polling (.repaint :: rest)) → s.needsRepaint = false →
        step s = .next { s with sched := s.sched.tail, caller := .mainLoop (.polling rest) })

/-- The main loop that finds `needsGameUpdate` set runs GameUpdate, after which it clears the flag; a game over first
pauses and clears the playfield. GameUpdate itself changes nothing but the playfield, and the pause nothing but the
playfield and the time (R137, R147). -/
def Obligations.MainLoopServicesGameUpdate : Prop :=
  ∀ (s : State) (rest : List Service), s.mode = .idle → MainNext s →
    (s.caller = .mainLoop (.polling (.gameUpdate :: rest)) → s.needsGameUpdate = true →
        step s = .next { s with sched := s.sched.tail, caller := .mainLoop (.updating rest) })
      ∧ (s.caller = .mainLoop (.polling (.gameUpdate :: rest)) → s.needsGameUpdate = false →
        step s = .next { s with sched := s.sched.tail, caller := .mainLoop (.polling rest) })
      ∧ (s.caller = .mainLoop (.updating rest) → ∃ after rows,
        step s = .next { s with
            sched := s.sched.tail, caller := .mainLoop after, pf := rows, freeIndex := s.freeIndex + 1 }
          ∧ (after = .updated rest ∨ (after = .gameOver rest ∧ rows = s.pf)))
      ∧ (s.caller = .mainLoop (.gameOver rest) → Memory.wf s.pf = true → ∃ rows,
        step s = .next { s with
            sched := s.sched.tail, caller := .mainLoop (.updated rest), pf := rows
            now := if s.timed then s.now + s.params.gameoverPause else s.now }
          ∧ ∀ j < 8, Memory.read rows j = 0)
      ∧ (s.caller = .mainLoop (.updated rest) →
        step s = .next { s with sched := s.sched.tail, needsGameUpdate := false, caller := .mainLoop (.polling rest) })

/-- Over every step but a reset, only the timer handler sets a flag and only the main loop clears one, after its service
(R50, R137). -/
def Obligations.FlagsHaveOneSetterOneClearer : Prop :=
  ∀ s t : State, NoResetNext s → step s = .next t →
    (t.needsRepaint = true → s.needsRepaint = false → ∃ rest, s.sched = .timer :: rest)
      ∧ (t.needsGameUpdate = true → s.needsGameUpdate = false → ∃ rest, s.sched = .timer :: rest)
      ∧ (t.needsRepaint = false → s.needsRepaint = true →
          MainNext s ∧ s.mode = .idle ∧ ∃ rest, s.caller = .mainLoop (.framing rest))
      ∧ (t.needsGameUpdate = false → s.needsGameUpdate = true →
          MainNext s ∧ s.mode = .idle ∧ ∃ rest, s.caller = .mainLoop (.updated rest))

/-! ### Reset, delays and time (70_reset_and_hazards.md) -/

/-- What the reset state holds of the values the spec gives (R36, R151). -/
def Obligations.ResetStateValues : Prop :=
  State.reset.mode = .idle ∧ State.reset.upc = 0 ∧ State.reset.faultCause = .none ∧ State.reset.colbyte = none
    ∧ State.reset.pins = Config.initPins
    ∧ (∀ k (h : k < 16), State.reset.shiftS[k] = none ∧ State.reset.outQ[k] = none)
    ∧ State.reset.needsRepaint = false ∧ State.reset.needsGameUpdate = false ∧ State.reset.tickCount = 0
    ∧ State.reset.trace = [] ∧ State.reset.now = 0

/-- The reset step, for every draw of INIT_PINS and from every mode: the block, flags, trace and time as R154 says; S and
Q all ⊥ after power-up and kept by a warm reset (R151, R154). -/
def Obligations.ResetStep : Prop :=
  ∀ (s : State) (powerUp : Bool) (draw : Pins) (rest : List Turn), s.sched = .reset powerUp draw :: rest →
    ∃ t, step s = .next t ∧ t.mode = .idle ∧ t.upc = 0 ∧ t.faultCause = .none ∧ t.colbyte = none ∧ t.pins = draw
      ∧ (powerUp = true → ∀ k (h : k < 16), t.shiftS[k] = none ∧ t.outQ[k] = none)
      ∧ (powerUp = false → t.shiftS = s.shiftS ∧ t.outQ = s.outQ)
      ∧ t.needsRepaint = false ∧ t.needsGameUpdate = false ∧ t.tickCount = 0 ∧ t.trace = [] ∧ t.now = 0

/-- The WAITs between two transitions of a row, row by row of R160's table: setup, hold, low width, high width, period,
latch to first rise, last rise to latch, latch low width, and latch high width to the next row of a frame; and between
any two pin micro-ops of a row at least one. -/
def Obligations.SeparationsHoldDelays : Prop :=
  ∀ j : Nat,
    (∀ k < 8, ∀ base, base = 3 ∨ base = 68 →
        waitsBetween (rowSeq j) (base + 8 * k + 2) (base + 8 * k + 4) = 1
          ∧ waitsBetween (rowSeq j) (base + 8 * k + 4) (base + 8 * k + 6) = 1
          ∧ waitsBetween (rowSeq j) (base + 8 * k) (base + 8 * k + 4) = 2
          ∧ (k < 7 → waitsBetween (rowSeq j) (base + 8 * k + 4) (base + 8 * (k + 1)) = 2
              ∧ waitsBetween (rowSeq j) (base + 8 * k + 4) (base + 8 * (k + 1) + 4) = 4))
      ∧ waitsBetween (rowSeq j) 63 68 = 2 ∧ waitsBetween (rowSeq j) 63 72 = 4
      ∧ waitsBetween (rowSeq j) 1 7 = 3 ∧ waitsBetween (rowSeq j) 128 133 = 3 ∧ waitsBetween (rowSeq j) 1 133 = 66
      ∧ (∀ r < 7, waitsBetween frameSeq (135 * r + 133) (135 * (r + 1) + 1) = 2)
      ∧ ∀ a b, a < b → ((rowSeq j)[a]?.any MicroOp.writesLine) = true → ((rowSeq j)[b]?.any MicroOp.writesLine) = true →
          1 ≤ waitsBetween (rowSeq j) a b

/-- In the timed semantics a command that ends without fault has taken at least DELAY_D for each of its WAITs, as many as
`ExpansionLengths` says (R101, R163, R167). -/
def Obligations.CommandsTakeTheirDelays : Prop :=
  ∀ (i : Instr) (s t : State), s.timed = true → Started s → execAll i s = .next t → t.mode = .idle →
    s.now + waitCount (expand i) * s.params.delayD ≤ t.now

/-! ### The invariant -/

/-- The invariant holds right after reset. -/
def Obligations.ResetStateMeetsInvariant : Prop := State.reset.Inv

/-- Every step of every agent keeps the invariant: the canonical playfield, the counter below its threshold, FAULT with
its cause, ROW_RANGE and UNWRITTEN never raised, `upc` within the running command's list, `colbyte` written before it is
read, and no game update while a frame runs (R19, R21, R22, R43, R49, R123, R124, R136). -/
def Obligations.StepKeepsInvariant : Prop := ∀ s t : State, s.Inv → step s = .next t → t.Inv

/-- From a state of the invariant no step of the main context runs into a stop of the model's own: it answers a next
state, but in FAULT, where the block takes no step (R131). -/
def Obligations.OnlyFaultStopsTheBlock : Prop :=
  ∀ s : State, s.Inv → s.mode ≠ .fault → ∃ t, step s = .next t
end

