-- ==== Sys2Proof/Laws/Assembly.lean ====
section
/-! SUPPORT. Laws/Assembly.lean: how a line of the assembly text falls into words. -/

namespace Sys2Proof.Machine

/-- Characters other than blanks are gathered into the word being read. -/
theorem tokensFrom_append {cs : List Char} (h : ∀ ch ∈ cs, ch ≠ ' ' ∧ ch ≠ '\t') (acc rest : List Char) :
    tokensFrom acc (cs ++ rest) = tokensFrom (cs.reverse ++ acc) rest := by
  induction cs generalizing acc with
  | nil => rfl
  | cons ch cs ih =>
    have hc := h ch List.mem_cons_self
    rw [List.cons_append, tokensFrom, if_neg (by simp [hc]), ih (fun c hm => h c (List.mem_cons_of_mem _ hm))]
    simp

/-- A line that is one word. -/
theorem tokensFrom_token {cs : List Char} (h : IsToken cs) : tokensFrom [] cs = [cs] := by
  have := tokensFrom_append (fun ch hm => ⟨(h.2 ch hm).1, (h.2 ch hm).2.1⟩) [] []
  rw [List.append_nil] at this
  simp [this, tokensFrom, h.1]

/-- A line that is two words. -/
theorem tokensFrom_two {a b : List Char} (ha : IsToken a) (hb : IsToken b) : tokensFrom [] (a ++ ' ' :: b) = [a, b] := by
  rw [tokensFrom_append (fun ch hm => ⟨(ha.2 ch hm).1, (ha.2 ch hm).2.1⟩), tokensFrom]
  simp [ha.1, tokensFrom_token hb]

/-- A line without a comment is read whole, and of one with a comment the part before it. -/
theorem takeWhile_comment {line : List Char} (h : ';' ∉ line) (comment : List Char) :
    (line ++ ';' :: comment).takeWhile (fun ch => ch != ';') = line
      ∧ line.takeWhile (fun ch => ch != ';') = line := by
  induction line with
  | nil => simp
  | cons ch line ih =>
    have hc : ch ≠ ';' := fun e => h (e ▸ List.mem_cons_self)
    have hl := ih (fun hm => h (List.mem_cons_of_mem _ hm))
    simp [hc, hl]

end Sys2Proof.Machine
end

