-- ==== Sys2Proof/Laws/Memory.lean ====
section
/-! SUPPORT. Laws/Memory.lean: the playfield as memory. Every memory operation keeps the canonical form; a write gives
the row written and leaves every other row alone. -/

namespace Sys2Proof.Machine

/-- An entry of a written memory is the one written or was there before. -/
theorem Memory.mem_write {m : Memory} {j : Nat} {v : Byte} {e : Host.Cell} (he : e ∈ Memory.write m j v) :
    e = (j, v) ∨ e ∈ m := by
  induction m with
  | nil =>
    simp only [Memory.write] at he
    split at he
    · exact absurd he List.not_mem_nil
    · exact .inl (by simpa using he)
  | cons c m ih =>
    obtain ⟨a, u⟩ := c
    simp only [Memory.write] at he
    split at he
    · split at he
      · exact .inr he
      · exact (List.mem_cons.1 he).imp_right id
    · split at he
      · next h =>
        subst h
        split at he
        · exact .inr (List.mem_cons_of_mem _ he)
        · exact (List.mem_cons.1 he).imp_right (List.mem_cons_of_mem _)
      · rcases List.mem_cons.1 he with h | h
        · exact .inr (h ▸ List.mem_cons_self)
        · exact (ih h).imp_right (List.mem_cons_of_mem _)

/-- Every listed index stays above a bound that the index written is above. -/
theorem all_lt_write {b j : Nat} {v : Byte} {m : Memory} (hj : b < j) (h : m.all (fun e => b < e.1) = true) :
    (Memory.write m j v).all (fun e => b < e.1) = true := by
  simp only [List.all_eq_true, decide_eq_true_eq] at h ⊢
  intro e he
  rcases Memory.mem_write he with rfl | he
  · exact hj
  · exact h e he

/-- A write keeps the canonical form. -/
theorem Memory.wf_write {m : Memory} (j : Nat) (v : Byte) (h : Memory.wf m = true) :
    Memory.wf (Memory.write m j v) = true := by
  induction m with
  | nil => by_cases hv : v = Memory.unlisted <;> simp [Memory.write, Memory.wf, hv]
  | cons e m ih =>
    obtain ⟨a, u⟩ := e
    simp only [Memory.wf, Bool.and_eq_true, bne_iff_ne, ne_eq] at h
    obtain ⟨⟨hu, ha⟩, hm⟩ := h
    simp only [Memory.write]
    split
    · next hja =>
      split
      · simp [Memory.wf, hu, ha, hm]
      · next hv =>
        have : m.all (fun e => decide (j < e.1)) = true := by
          simp only [List.all_eq_true, decide_eq_true_eq] at ha ⊢
          intro e he
          exact lt_trans hja (ha e he)
        simp [Memory.wf, hv, hu, ha, hm, hja, this]
    · split
      · next h2 =>
        subst h2
        split
        · exact hm
        · next hv => simp only [Memory.wf, ha, hm, Bool.and_true, bne_iff_ne, ne_eq, hv, not_false_eq_true]
      · next h1 h2 =>
        have := all_lt_write (v := v) (show a < j by omega) ha
        simp [Memory.wf, hu, this, ih hm]

/-- A write of a row 0..7 lists rows 0..7 only. -/
theorem Memory.inRange_write {m : Memory} {j : Nat} (v : Byte) (hj : j < 8) (h : Memory.inRange m = true) :
    Memory.inRange (Memory.write m j v) = true := by
  simp only [Memory.inRange, List.all_eq_true, decide_eq_true_eq] at h ⊢
  intro e he
  rcases Memory.mem_write he with rfl | he
  · exact hj
  · exact h e he

/-- A row below every listed index reads as an unlisted one. -/
theorem Memory.read_of_all_lt {m : Memory} {j : Nat} (h : m.all (fun e => j < e.1) = true) :
    Memory.read m j = Memory.unlisted := by
  induction m with
  | nil => rfl
  | cons e m ih =>
    obtain ⟨a, u⟩ := e
    simp only [List.all_cons, Bool.and_eq_true, decide_eq_true_eq] at h
    have : a ≠ j := by omega
    simp [Memory.read, this, ih h.2]

/-- A read after a write of the same row gives the row written. -/
theorem Memory.read_write_same {m : Memory} (j : Nat) (v : Byte) (h : Memory.wf m = true) :
    Memory.read (Memory.write m j v) j = v := by
  induction m with
  | nil => by_cases hv : v = Memory.unlisted <;> simp [Memory.write, Memory.read, hv]
  | cons e m ih =>
    obtain ⟨a, u⟩ := e
    simp only [Memory.wf, Bool.and_eq_true, bne_iff_ne, ne_eq] at h
    obtain ⟨⟨hu, ha⟩, hm⟩ := h
    simp only [Memory.write]
    split
    · next hja =>
      split
      · next hv =>
        rw [hv]
        apply Memory.read_of_all_lt
        simp only [List.all_cons, Bool.and_eq_true, decide_eq_true_eq, List.all_eq_true] at ha ⊢
        exact ⟨hja, fun e he => lt_trans hja (ha e he)⟩
      · simp [Memory.read]
    · split
      · next h1 h2 =>
        subst h2
        split
        · next hv => rw [hv, Memory.read_of_all_lt ha]
        · simp [Memory.read]
      · next h1 h2 =>
        have : a ≠ j := fun h => h2 h.symm
        simp [Memory.read, this, ih hm]

/-- A write leaves every other row alone. -/
theorem Memory.read_write_other {m : Memory} {j k : Nat} (v : Byte) (hk : k ≠ j) (h : Memory.wf m = true) :
    Memory.read (Memory.write m j v) k = Memory.read m k := by
  induction m with
  | nil => by_cases hv : v = Memory.unlisted <;> simp [Memory.write, Memory.read, hv, Ne.symm hk]
  | cons e m ih =>
    obtain ⟨a, u⟩ := e
    simp only [Memory.wf, Bool.and_eq_true, bne_iff_ne, ne_eq] at h
    obtain ⟨⟨hu, ha⟩, hm⟩ := h
    simp only [Memory.write]
    split
    · split
      · rfl
      · simp [Memory.read, Ne.symm hk]
    · split
      · next h1 h2 =>
        subst h2
        split <;> simp [Memory.read, Ne.symm hk]
      · simp [Memory.read, ih hm]

/-- GameUpdate's rewriting of the rows keeps the canonical form and the range. -/
theorem gameRows_wf {m : Memory} (n : Nat) (h : Memory.wf m = true) (hr : Memory.inRange m = true) :
    Memory.wf (gameRows n m) = true ∧ Memory.inRange (gameRows n m) = true := by
  have key : ∀ (l : List Nat) (m : Memory), (∀ j ∈ l, j < 8) → Memory.wf m = true → Memory.inRange m = true →
      Memory.wf (l.foldl (fun m j => Memory.write m j (Config.gameRow n j)) m) = true ∧
      Memory.inRange (l.foldl (fun m j => Memory.write m j (Config.gameRow n j)) m) = true := by
    intro l
    induction l with
    | nil => intro m _ h hr; exact ⟨h, hr⟩
    | cons j l ih =>
      intro m hl h hr
      exact ih _ (fun k hk => hl k (List.mem_cons_of_mem _ hk)) (Memory.wf_write _ _ h)
        (Memory.inRange_write _ (hl j List.mem_cons_self) hr)
  exact key _ m (by simp) h hr

/-- Clearing the playfield keeps the canonical form and the range. -/
theorem clearRows_wf {m : Memory} (h : Memory.wf m = true) (hr : Memory.inRange m = true) :
    Memory.wf (clearRows m) = true ∧ Memory.inRange (clearRows m) = true := by
  have key : ∀ (l : List Nat) (m : Memory), (∀ j ∈ l, j < 8) → Memory.wf m = true → Memory.inRange m = true →
      Memory.wf (l.foldl (fun m j => Memory.write m j 0) m) = true ∧
      Memory.inRange (l.foldl (fun m j => Memory.write m j 0) m) = true := by
    intro l
    induction l with
    | nil => intro m _ h hr; exact ⟨h, hr⟩
    | cons j l ih =>
      intro m hl h hr
      exact ih _ (fun k hk => hl k (List.mem_cons_of_mem _ hk)) (Memory.wf_write _ _ h)
        (Memory.inRange_write _ (hl j List.mem_cons_self) hr)
  exact key _ m (by simp) h hr

/-- After the clearing every row of the playfield reads 0 (R147). -/
theorem Memory.read_clearRows {m : Memory} {j : Nat} (h : Memory.wf m = true) (hj : j < 8) :
    Memory.read (clearRows m) j = 0 := by
  have fold : ∀ (l : List Nat) (m : Memory), Memory.wf m = true →
      Memory.read (l.foldl (fun m j => Memory.write m j 0) m) j = if j ∈ l then 0 else Memory.read m j := by
    intro l
    induction l with
    | nil => intro m _; simp
    | cons k l ih =>
      intro m h
      rw [List.foldl_cons, ih _ (Memory.wf_write k 0 h)]
      by_cases hjl : j ∈ l
      · simp [hjl]
      · by_cases hjk : j = k
        · subst hjk
          simp [hjl, Memory.read_write_same _ _ h]
        · simp [hjl, hjk, Memory.read_write_other _ hjk h]
  rw [clearRows, fold _ _ h]
  simp [hj]

/-- The playfield of the state after reset is in its canonical form. -/
theorem reset_pf_wf : Memory.wf State.reset.pf = true := rfl

end Sys2Proof.Machine
end

