-- ==== Sys2Proof/Laws/State.lean ====
section
/-! SUPPORT. Laws/State.lean: what each named update leaves of each field, by rfl, so that no proof unfolds a record
update. -/

namespace Sys2Proof.Machine

/-! ### emit -/

@[simp] theorem emit_mode (e : Event) (s : State) : (emit e s).mode = s.mode := rfl
@[simp] theorem emit_cmd (e : Event) (s : State) : (emit e s).cmd = s.cmd := rfl
@[simp] theorem emit_upc (e : Event) (s : State) : (emit e s).upc = s.upc := rfl
@[simp] theorem emit_colbyte (e : Event) (s : State) : (emit e s).colbyte = s.colbyte := rfl
@[simp] theorem emit_faultCause (e : Event) (s : State) : (emit e s).faultCause = s.faultCause := rfl
@[simp] theorem emit_pins (e : Event) (s : State) : (emit e s).pins = s.pins := rfl
@[simp] theorem emit_shiftS (e : Event) (s : State) : (emit e s).shiftS = s.shiftS := rfl
@[simp] theorem emit_outQ (e : Event) (s : State) : (emit e s).outQ = s.outQ := rfl
@[simp] theorem emit_pf (e : Event) (s : State) : (emit e s).pf = s.pf := rfl
@[simp] theorem emit_needsRepaint (e : Event) (s : State) : (emit e s).needsRepaint = s.needsRepaint := rfl
@[simp] theorem emit_needsGameUpdate (e : Event) (s : State) : (emit e s).needsGameUpdate = s.needsGameUpdate := rfl
@[simp] theorem emit_tickCount (e : Event) (s : State) : (emit e s).tickCount = s.tickCount := rfl
@[simp] theorem emit_trace (e : Event) (s : State) : (emit e s).trace = s.trace ++ [⟨stampNow s, e⟩] := rfl
@[simp] theorem emit_now (e : Event) (s : State) : (emit e s).now = s.now := rfl
@[simp] theorem emit_caller (e : Event) (s : State) : (emit e s).caller = s.caller := rfl
@[simp] theorem emit_sched (e : Event) (s : State) : (emit e s).sched = s.sched := rfl
@[simp] theorem emit_timed (e : Event) (s : State) : (emit e s).timed = s.timed := rfl
@[simp] theorem emit_params (e : Event) (s : State) : (emit e s).params = s.params := rfl
@[simp] theorem emit_draws (e : Event) (s : State) : (emit e s).draws = s.draws := rfl
@[simp] theorem emit_freeIndex (e : Event) (s : State) : (emit e s).freeIndex = s.freeIndex := rfl
@[simp] theorem emit_tickDue (e : Event) (s : State) : (emit e s).tickDue = s.tickDue := rfl

/-! ### spend -/

@[simp] theorem spend_mode (s : State) : (spend s).mode = s.mode := rfl
@[simp] theorem spend_cmd (s : State) : (spend s).cmd = s.cmd := rfl
@[simp] theorem spend_upc (s : State) : (spend s).upc = s.upc := rfl
@[simp] theorem spend_colbyte (s : State) : (spend s).colbyte = s.colbyte := rfl
@[simp] theorem spend_faultCause (s : State) : (spend s).faultCause = s.faultCause := rfl
@[simp] theorem spend_pins (s : State) : (spend s).pins = s.pins := rfl
@[simp] theorem spend_shiftS (s : State) : (spend s).shiftS = s.shiftS := rfl
@[simp] theorem spend_outQ (s : State) : (spend s).outQ = s.outQ := rfl
@[simp] theorem spend_pf (s : State) : (spend s).pf = s.pf := rfl
@[simp] theorem spend_needsRepaint (s : State) : (spend s).needsRepaint = s.needsRepaint := rfl
@[simp] theorem spend_needsGameUpdate (s : State) : (spend s).needsGameUpdate = s.needsGameUpdate := rfl
@[simp] theorem spend_tickCount (s : State) : (spend s).tickCount = s.tickCount := rfl
@[simp] theorem spend_trace (s : State) : (spend s).trace = s.trace := rfl
@[simp] theorem spend_caller (s : State) : (spend s).caller = s.caller := rfl
@[simp] theorem spend_sched (s : State) : (spend s).sched = s.sched := rfl
@[simp] theorem spend_timed (s : State) : (spend s).timed = s.timed := rfl
@[simp] theorem spend_params (s : State) : (spend s).params = s.params := rfl
@[simp] theorem spend_tickDue (s : State) : (spend s).tickDue = s.tickDue := rfl

/-! ### elapse -/

@[simp] theorem elapse_mode (d : Nat) (s : State) : (elapse d s).mode = s.mode := rfl
@[simp] theorem elapse_cmd (d : Nat) (s : State) : (elapse d s).cmd = s.cmd := rfl
@[simp] theorem elapse_upc (d : Nat) (s : State) : (elapse d s).upc = s.upc := rfl
@[simp] theorem elapse_colbyte (d : Nat) (s : State) : (elapse d s).colbyte = s.colbyte := rfl
@[simp] theorem elapse_faultCause (d : Nat) (s : State) : (elapse d s).faultCause = s.faultCause := rfl
@[simp] theorem elapse_pins (d : Nat) (s : State) : (elapse d s).pins = s.pins := rfl
@[simp] theorem elapse_shiftS (d : Nat) (s : State) : (elapse d s).shiftS = s.shiftS := rfl
@[simp] theorem elapse_outQ (d : Nat) (s : State) : (elapse d s).outQ = s.outQ := rfl
@[simp] theorem elapse_pf (d : Nat) (s : State) : (elapse d s).pf = s.pf := rfl
@[simp] theorem elapse_needsRepaint (d : Nat) (s : State) : (elapse d s).needsRepaint = s.needsRepaint := rfl
@[simp] theorem elapse_needsGameUpdate (d : Nat) (s : State) : (elapse d s).needsGameUpdate = s.needsGameUpdate := rfl
@[simp] theorem elapse_tickCount (d : Nat) (s : State) : (elapse d s).tickCount = s.tickCount := rfl
@[simp] theorem elapse_trace (d : Nat) (s : State) : (elapse d s).trace = s.trace := rfl
@[simp] theorem elapse_caller (d : Nat) (s : State) : (elapse d s).caller = s.caller := rfl
@[simp] theorem elapse_sched (d : Nat) (s : State) : (elapse d s).sched = s.sched := rfl
@[simp] theorem elapse_timed (d : Nat) (s : State) : (elapse d s).timed = s.timed := rfl
@[simp] theorem elapse_params (d : Nat) (s : State) : (elapse d s).params = s.params := rfl
@[simp] theorem elapse_draws (d : Nat) (s : State) : (elapse d s).draws = s.draws := rfl
@[simp] theorem elapse_freeIndex (d : Nat) (s : State) : (elapse d s).freeIndex = s.freeIndex := rfl
@[simp] theorem elapse_tickDue (d : Nat) (s : State) : (elapse d s).tickDue = s.tickDue := rfl

/-! ### raise -/

@[simp] theorem raise_mode (c : FaultCause) (w : Option Word) (s : State) : (raise c w s).mode = .fault := rfl
@[simp] theorem raise_cmd (c : FaultCause) (w : Option Word) (s : State) : (raise c w s).cmd = s.cmd := rfl
@[simp] theorem raise_upc (c : FaultCause) (w : Option Word) (s : State) : (raise c w s).upc = s.upc := rfl
@[simp] theorem raise_colbyte (c : FaultCause) (w : Option Word) (s : State) : (raise c w s).colbyte = s.colbyte := rfl
@[simp] theorem raise_faultCause (c : FaultCause) (w : Option Word) (s : State) : (raise c w s).faultCause = if s.faultCause = .none then c else s.faultCause := rfl
@[simp] theorem raise_pins (c : FaultCause) (w : Option Word) (s : State) : (raise c w s).pins = s.pins := rfl
@[simp] theorem raise_shiftS (c : FaultCause) (w : Option Word) (s : State) : (raise c w s).shiftS = s.shiftS := rfl
@[simp] theorem raise_outQ (c : FaultCause) (w : Option Word) (s : State) : (raise c w s).outQ = s.outQ := rfl
@[simp] theorem raise_pf (c : FaultCause) (w : Option Word) (s : State) : (raise c w s).pf = s.pf := rfl
@[simp] theorem raise_needsRepaint (c : FaultCause) (w : Option Word) (s : State) : (raise c w s).needsRepaint = s.needsRepaint := rfl
@[simp] theorem raise_needsGameUpdate (c : FaultCause) (w : Option Word) (s : State) : (raise c w s).needsGameUpdate = s.needsGameUpdate := rfl
@[simp] theorem raise_tickCount (c : FaultCause) (w : Option Word) (s : State) : (raise c w s).tickCount = s.tickCount := rfl
@[simp] theorem raise_trace (c : FaultCause) (w : Option Word) (s : State) : (raise c w s).trace = s.trace ++ [⟨stampNow s, .fault c w⟩] := rfl
@[simp] theorem raise_now (c : FaultCause) (w : Option Word) (s : State) : (raise c w s).now = s.now := rfl
@[simp] theorem raise_caller (c : FaultCause) (w : Option Word) (s : State) : (raise c w s).caller = s.caller := rfl
@[simp] theorem raise_sched (c : FaultCause) (w : Option Word) (s : State) : (raise c w s).sched = s.sched := rfl
@[simp] theorem raise_timed (c : FaultCause) (w : Option Word) (s : State) : (raise c w s).timed = s.timed := rfl
@[simp] theorem raise_params (c : FaultCause) (w : Option Word) (s : State) : (raise c w s).params = s.params := rfl
@[simp] theorem raise_draws (c : FaultCause) (w : Option Word) (s : State) : (raise c w s).draws = s.draws := rfl
@[simp] theorem raise_freeIndex (c : FaultCause) (w : Option Word) (s : State) : (raise c w s).freeIndex = s.freeIndex := rfl
@[simp] theorem raise_tickDue (c : FaultCause) (w : Option Word) (s : State) : (raise c w s).tickDue = s.tickDue := rfl

/-! ### clockRise -/

@[simp] theorem clockRise_mode (s : State) : (clockRise s).mode = s.mode := rfl
@[simp] theorem clockRise_cmd (s : State) : (clockRise s).cmd = s.cmd := rfl
@[simp] theorem clockRise_upc (s : State) : (clockRise s).upc = s.upc := rfl
@[simp] theorem clockRise_colbyte (s : State) : (clockRise s).colbyte = s.colbyte := rfl
@[simp] theorem clockRise_faultCause (s : State) : (clockRise s).faultCause = s.faultCause := rfl
@[simp] theorem clockRise_pins (s : State) : (clockRise s).pins = s.pins := rfl
@[simp] theorem clockRise_shiftS (s : State) : (clockRise s).shiftS = shiftIn (some s.pins.data) s.shiftS := rfl
@[simp] theorem clockRise_outQ (s : State) : (clockRise s).outQ = s.outQ := rfl
@[simp] theorem clockRise_pf (s : State) : (clockRise s).pf = s.pf := rfl
@[simp] theorem clockRise_needsRepaint (s : State) : (clockRise s).needsRepaint = s.needsRepaint := rfl
@[simp] theorem clockRise_needsGameUpdate (s : State) : (clockRise s).needsGameUpdate = s.needsGameUpdate := rfl
@[simp] theorem clockRise_tickCount (s : State) : (clockRise s).tickCount = s.tickCount := rfl
@[simp] theorem clockRise_trace (s : State) : (clockRise s).trace = s.trace ++ [⟨stampNow s, .shift s.pins.data⟩] := rfl
@[simp] theorem clockRise_now (s : State) : (clockRise s).now = s.now := rfl
@[simp] theorem clockRise_caller (s : State) : (clockRise s).caller = s.caller := rfl
@[simp] theorem clockRise_sched (s : State) : (clockRise s).sched = s.sched := rfl
@[simp] theorem clockRise_timed (s : State) : (clockRise s).timed = s.timed := rfl
@[simp] theorem clockRise_params (s : State) : (clockRise s).params = s.params := rfl
@[simp] theorem clockRise_draws (s : State) : (clockRise s).draws = s.draws := rfl
@[simp] theorem clockRise_freeIndex (s : State) : (clockRise s).freeIndex = s.freeIndex := rfl
@[simp] theorem clockRise_tickDue (s : State) : (clockRise s).tickDue = s.tickDue := rfl

/-! ### latchRise -/

@[simp] theorem latchRise_mode (s : State) : (latchRise s).mode = s.mode := rfl
@[simp] theorem latchRise_cmd (s : State) : (latchRise s).cmd = s.cmd := rfl
@[simp] theorem latchRise_upc (s : State) : (latchRise s).upc = s.upc := rfl
@[simp] theorem latchRise_colbyte (s : State) : (latchRise s).colbyte = s.colbyte := rfl
@[simp] theorem latchRise_faultCause (s : State) : (latchRise s).faultCause = s.faultCause := rfl
@[simp] theorem latchRise_pins (s : State) : (latchRise s).pins = s.pins := rfl
@[simp] theorem latchRise_shiftS (s : State) : (latchRise s).shiftS = s.shiftS := rfl
@[simp] theorem latchRise_outQ (s : State) : (latchRise s).outQ = s.shiftS := rfl
@[simp] theorem latchRise_pf (s : State) : (latchRise s).pf = s.pf := rfl
@[simp] theorem latchRise_needsRepaint (s : State) : (latchRise s).needsRepaint = s.needsRepaint := rfl
@[simp] theorem latchRise_needsGameUpdate (s : State) : (latchRise s).needsGameUpdate = s.needsGameUpdate := rfl
@[simp] theorem latchRise_tickCount (s : State) : (latchRise s).tickCount = s.tickCount := rfl
@[simp] theorem latchRise_trace (s : State) : (latchRise s).trace = s.trace ++ [⟨stampNow s, .latch s.shiftS⟩] := rfl
@[simp] theorem latchRise_now (s : State) : (latchRise s).now = s.now := rfl
@[simp] theorem latchRise_caller (s : State) : (latchRise s).caller = s.caller := rfl
@[simp] theorem latchRise_sched (s : State) : (latchRise s).sched = s.sched := rfl
@[simp] theorem latchRise_timed (s : State) : (latchRise s).timed = s.timed := rfl
@[simp] theorem latchRise_params (s : State) : (latchRise s).params = s.params := rfl
@[simp] theorem latchRise_draws (s : State) : (latchRise s).draws = s.draws := rfl
@[simp] theorem latchRise_freeIndex (s : State) : (latchRise s).freeIndex = s.freeIndex := rfl
@[simp] theorem latchRise_tickDue (s : State) : (latchRise s).tickDue = s.tickDue := rfl

/-! ### timerHandler -/

@[simp] theorem timerHandler_mode (s : State) : (timerHandler s).mode = s.mode := rfl
@[simp] theorem timerHandler_cmd (s : State) : (timerHandler s).cmd = s.cmd := rfl
@[simp] theorem timerHandler_upc (s : State) : (timerHandler s).upc = s.upc := rfl
@[simp] theorem timerHandler_colbyte (s : State) : (timerHandler s).colbyte = s.colbyte := rfl
@[simp] theorem timerHandler_faultCause (s : State) : (timerHandler s).faultCause = s.faultCause := rfl
@[simp] theorem timerHandler_pins (s : State) : (timerHandler s).pins = s.pins := rfl
@[simp] theorem timerHandler_shiftS (s : State) : (timerHandler s).shiftS = s.shiftS := rfl
@[simp] theorem timerHandler_outQ (s : State) : (timerHandler s).outQ = s.outQ := rfl
@[simp] theorem timerHandler_pf (s : State) : (timerHandler s).pf = s.pf := rfl
@[simp] theorem timerHandler_needsRepaint (s : State) : (timerHandler s).needsRepaint = true := rfl
@[simp] theorem timerHandler_needsGameUpdate (s : State) : (timerHandler s).needsGameUpdate = (s.needsGameUpdate || gameTick s) := rfl
@[simp] theorem timerHandler_tickCount (s : State) : (timerHandler s).tickCount = tickNext s := rfl
@[simp] theorem timerHandler_trace (s : State) : (timerHandler s).trace = s.trace := rfl
@[simp] theorem timerHandler_now (s : State) : (timerHandler s).now = s.now := rfl
@[simp] theorem timerHandler_caller (s : State) : (timerHandler s).caller = s.caller := rfl
@[simp] theorem timerHandler_sched (s : State) : (timerHandler s).sched = s.sched := rfl
@[simp] theorem timerHandler_timed (s : State) : (timerHandler s).timed = s.timed := rfl
@[simp] theorem timerHandler_params (s : State) : (timerHandler s).params = s.params := rfl
@[simp] theorem timerHandler_draws (s : State) : (timerHandler s).draws = s.draws := rfl
@[simp] theorem timerHandler_freeIndex (s : State) : (timerHandler s).freeIndex = s.freeIndex := rfl
@[simp] theorem timerHandler_tickDue (s : State) : (timerHandler s).tickDue = s.tickDue := rfl

/-! ### atPhase -/

@[simp] theorem atPhase_mode (p : LoopPhase) (s : State) : (atPhase p s).mode = s.mode := rfl
@[simp] theorem atPhase_cmd (p : LoopPhase) (s : State) : (atPhase p s).cmd = s.cmd := rfl
@[simp] theorem atPhase_upc (p : LoopPhase) (s : State) : (atPhase p s).upc = s.upc := rfl
@[simp] theorem atPhase_colbyte (p : LoopPhase) (s : State) : (atPhase p s).colbyte = s.colbyte := rfl
@[simp] theorem atPhase_faultCause (p : LoopPhase) (s : State) : (atPhase p s).faultCause = s.faultCause := rfl
@[simp] theorem atPhase_pins (p : LoopPhase) (s : State) : (atPhase p s).pins = s.pins := rfl
@[simp] theorem atPhase_shiftS (p : LoopPhase) (s : State) : (atPhase p s).shiftS = s.shiftS := rfl
@[simp] theorem atPhase_outQ (p : LoopPhase) (s : State) : (atPhase p s).outQ = s.outQ := rfl
@[simp] theorem atPhase_pf (p : LoopPhase) (s : State) : (atPhase p s).pf = s.pf := rfl
@[simp] theorem atPhase_needsRepaint (p : LoopPhase) (s : State) : (atPhase p s).needsRepaint = s.needsRepaint := rfl
@[simp] theorem atPhase_needsGameUpdate (p : LoopPhase) (s : State) : (atPhase p s).needsGameUpdate = s.needsGameUpdate := rfl
@[simp] theorem atPhase_tickCount (p : LoopPhase) (s : State) : (atPhase p s).tickCount = s.tickCount := rfl
@[simp] theorem atPhase_trace (p : LoopPhase) (s : State) : (atPhase p s).trace = s.trace := rfl
@[simp] theorem atPhase_now (p : LoopPhase) (s : State) : (atPhase p s).now = s.now := rfl
@[simp] theorem atPhase_caller (p : LoopPhase) (s : State) : (atPhase p s).caller = .mainLoop p := rfl
@[simp] theorem atPhase_sched (p : LoopPhase) (s : State) : (atPhase p s).sched = s.sched := rfl
@[simp] theorem atPhase_timed (p : LoopPhase) (s : State) : (atPhase p s).timed = s.timed := rfl
@[simp] theorem atPhase_params (p : LoopPhase) (s : State) : (atPhase p s).params = s.params := rfl
@[simp] theorem atPhase_draws (p : LoopPhase) (s : State) : (atPhase p s).draws = s.draws := rfl
@[simp] theorem atPhase_freeIndex (p : LoopPhase) (s : State) : (atPhase p s).freeIndex = s.freeIndex := rfl
@[simp] theorem atPhase_tickDue (p : LoopPhase) (s : State) : (atPhase p s).tickDue = s.tickDue := rfl

/-! ### useFree -/

@[simp] theorem useFree_mode (s : State) : (useFree s).mode = s.mode := rfl
@[simp] theorem useFree_cmd (s : State) : (useFree s).cmd = s.cmd := rfl
@[simp] theorem useFree_upc (s : State) : (useFree s).upc = s.upc := rfl
@[simp] theorem useFree_colbyte (s : State) : (useFree s).colbyte = s.colbyte := rfl
@[simp] theorem useFree_faultCause (s : State) : (useFree s).faultCause = s.faultCause := rfl
@[simp] theorem useFree_pins (s : State) : (useFree s).pins = s.pins := rfl
@[simp] theorem useFree_shiftS (s : State) : (useFree s).shiftS = s.shiftS := rfl
@[simp] theorem useFree_outQ (s : State) : (useFree s).outQ = s.outQ := rfl
@[simp] theorem useFree_pf (s : State) : (useFree s).pf = s.pf := rfl
@[simp] theorem useFree_needsRepaint (s : State) : (useFree s).needsRepaint = s.needsRepaint := rfl
@[simp] theorem useFree_needsGameUpdate (s : State) : (useFree s).needsGameUpdate = s.needsGameUpdate := rfl
@[simp] theorem useFree_tickCount (s : State) : (useFree s).tickCount = s.tickCount := rfl
@[simp] theorem useFree_trace (s : State) : (useFree s).trace = s.trace := rfl
@[simp] theorem useFree_now (s : State) : (useFree s).now = s.now := rfl
@[simp] theorem useFree_caller (s : State) : (useFree s).caller = s.caller := rfl
@[simp] theorem useFree_sched (s : State) : (useFree s).sched = s.sched := rfl
@[simp] theorem useFree_timed (s : State) : (useFree s).timed = s.timed := rfl
@[simp] theorem useFree_params (s : State) : (useFree s).params = s.params := rfl
@[simp] theorem useFree_draws (s : State) : (useFree s).draws = s.draws := rfl
@[simp] theorem useFree_freeIndex (s : State) : (useFree s).freeIndex = s.freeIndex + 1 := rfl
@[simp] theorem useFree_tickDue (s : State) : (useFree s).tickDue = s.tickDue := rfl

/-! ### clearRepaint -/

@[simp] theorem clearRepaint_mode (s : State) : (clearRepaint s).mode = s.mode := rfl
@[simp] theorem clearRepaint_cmd (s : State) : (clearRepaint s).cmd = s.cmd := rfl
@[simp] theorem clearRepaint_upc (s : State) : (clearRepaint s).upc = s.upc := rfl
@[simp] theorem clearRepaint_colbyte (s : State) : (clearRepaint s).colbyte = s.colbyte := rfl
@[simp] theorem clearRepaint_faultCause (s : State) : (clearRepaint s).faultCause = s.faultCause := rfl
@[simp] theorem clearRepaint_pins (s : State) : (clearRepaint s).pins = s.pins := rfl
@[simp] theorem clearRepaint_shiftS (s : State) : (clearRepaint s).shiftS = s.shiftS := rfl
@[simp] theorem clearRepaint_outQ (s : State) : (clearRepaint s).outQ = s.outQ := rfl
@[simp] theorem clearRepaint_pf (s : State) : (clearRepaint s).pf = s.pf := rfl
@[simp] theorem clearRepaint_needsRepaint (s : State) : (clearRepaint s).needsRepaint = false := rfl
@[simp] theorem clearRepaint_needsGameUpdate (s : State) : (clearRepaint s).needsGameUpdate = s.needsGameUpdate := rfl
@[simp] theorem clearRepaint_tickCount (s : State) : (clearRepaint s).tickCount = s.tickCount := rfl
@[simp] theorem clearRepaint_trace (s : State) : (clearRepaint s).trace = s.trace := rfl
@[simp] theorem clearRepaint_now (s : State) : (clearRepaint s).now = s.now := rfl
@[simp] theorem clearRepaint_caller (s : State) : (clearRepaint s).caller = s.caller := rfl
@[simp] theorem clearRepaint_sched (s : State) : (clearRepaint s).sched = s.sched := rfl
@[simp] theorem clearRepaint_timed (s : State) : (clearRepaint s).timed = s.timed := rfl
@[simp] theorem clearRepaint_params (s : State) : (clearRepaint s).params = s.params := rfl
@[simp] theorem clearRepaint_draws (s : State) : (clearRepaint s).draws = s.draws := rfl
@[simp] theorem clearRepaint_freeIndex (s : State) : (clearRepaint s).freeIndex = s.freeIndex := rfl
@[simp] theorem clearRepaint_tickDue (s : State) : (clearRepaint s).tickDue = s.tickDue := rfl

/-! ### clearGameUpdate -/

@[simp] theorem clearGameUpdate_mode (s : State) : (clearGameUpdate s).mode = s.mode := rfl
@[simp] theorem clearGameUpdate_cmd (s : State) : (clearGameUpdate s).cmd = s.cmd := rfl
@[simp] theorem clearGameUpdate_upc (s : State) : (clearGameUpdate s).upc = s.upc := rfl
@[simp] theorem clearGameUpdate_colbyte (s : State) : (clearGameUpdate s).colbyte = s.colbyte := rfl
@[simp] theorem clearGameUpdate_faultCause (s : State) : (clearGameUpdate s).faultCause = s.faultCause := rfl
@[simp] theorem clearGameUpdate_pins (s : State) : (clearGameUpdate s).pins = s.pins := rfl
@[simp] theorem clearGameUpdate_shiftS (s : State) : (clearGameUpdate s).shiftS = s.shiftS := rfl
@[simp] theorem clearGameUpdate_outQ (s : State) : (clearGameUpdate s).outQ = s.outQ := rfl
@[simp] theorem clearGameUpdate_pf (s : State) : (clearGameUpdate s).pf = s.pf := rfl
@[simp] theorem clearGameUpdate_needsRepaint (s : State) : (clearGameUpdate s).needsRepaint = s.needsRepaint := rfl
@[simp] theorem clearGameUpdate_needsGameUpdate (s : State) : (clearGameUpdate s).needsGameUpdate = false := rfl
@[simp] theorem clearGameUpdate_tickCount (s : State) : (clearGameUpdate s).tickCount = s.tickCount := rfl
@[simp] theorem clearGameUpdate_trace (s : State) : (clearGameUpdate s).trace = s.trace := rfl
@[simp] theorem clearGameUpdate_now (s : State) : (clearGameUpdate s).now = s.now := rfl
@[simp] theorem clearGameUpdate_caller (s : State) : (clearGameUpdate s).caller = s.caller := rfl
@[simp] theorem clearGameUpdate_sched (s : State) : (clearGameUpdate s).sched = s.sched := rfl
@[simp] theorem clearGameUpdate_timed (s : State) : (clearGameUpdate s).timed = s.timed := rfl
@[simp] theorem clearGameUpdate_params (s : State) : (clearGameUpdate s).params = s.params := rfl
@[simp] theorem clearGameUpdate_draws (s : State) : (clearGameUpdate s).draws = s.draws := rfl
@[simp] theorem clearGameUpdate_freeIndex (s : State) : (clearGameUpdate s).freeIndex = s.freeIndex := rfl
@[simp] theorem clearGameUpdate_tickDue (s : State) : (clearGameUpdate s).tickDue = s.tickDue := rfl

/-! ### resetStep -/

@[simp] theorem resetStep_mode (u : Bool) (p : Pins) (s : State) : (resetStep u p s).mode = .idle := rfl
@[simp] theorem resetStep_cmd (u : Bool) (p : Pins) (s : State) : (resetStep u p s).cmd = s.cmd := rfl
@[simp] theorem resetStep_upc (u : Bool) (p : Pins) (s : State) : (resetStep u p s).upc = 0 := rfl
@[simp] theorem resetStep_colbyte (u : Bool) (p : Pins) (s : State) : (resetStep u p s).colbyte = none := rfl
@[simp] theorem resetStep_faultCause (u : Bool) (p : Pins) (s : State) : (resetStep u p s).faultCause = .none := rfl
@[simp] theorem resetStep_pins (u : Bool) (p : Pins) (s : State) : (resetStep u p s).pins = p := rfl
@[simp] theorem resetStep_shiftS (u : Bool) (p : Pins) (s : State) : (resetStep u p s).shiftS = if u then Vector.replicate 16 none else s.shiftS := rfl
@[simp] theorem resetStep_outQ (u : Bool) (p : Pins) (s : State) : (resetStep u p s).outQ = if u then Vector.replicate 16 none else s.outQ := rfl
@[simp] theorem resetStep_pf (u : Bool) (p : Pins) (s : State) : (resetStep u p s).pf = s.pf := rfl
@[simp] theorem resetStep_needsRepaint (u : Bool) (p : Pins) (s : State) : (resetStep u p s).needsRepaint = false := rfl
@[simp] theorem resetStep_needsGameUpdate (u : Bool) (p : Pins) (s : State) : (resetStep u p s).needsGameUpdate = false := rfl
@[simp] theorem resetStep_tickCount (u : Bool) (p : Pins) (s : State) : (resetStep u p s).tickCount = 0 := rfl
@[simp] theorem resetStep_trace (u : Bool) (p : Pins) (s : State) : (resetStep u p s).trace = [] := rfl
@[simp] theorem resetStep_now (u : Bool) (p : Pins) (s : State) : (resetStep u p s).now = 0 := rfl
@[simp] theorem resetStep_caller (u : Bool) (p : Pins) (s : State) : (resetStep u p s).caller = restartCaller s.caller := rfl
@[simp] theorem resetStep_sched (u : Bool) (p : Pins) (s : State) : (resetStep u p s).sched = s.sched := rfl
@[simp] theorem resetStep_timed (u : Bool) (p : Pins) (s : State) : (resetStep u p s).timed = s.timed := rfl
@[simp] theorem resetStep_params (u : Bool) (p : Pins) (s : State) : (resetStep u p s).params = s.params := rfl
@[simp] theorem resetStep_draws (u : Bool) (p : Pins) (s : State) : (resetStep u p s).draws = s.draws := rfl
@[simp] theorem resetStep_freeIndex (u : Bool) (p : Pins) (s : State) : (resetStep u p s).freeIndex = s.freeIndex := rfl
@[simp] theorem resetStep_tickDue (u : Bool) (p : Pins) (s : State) : (resetStep u p s).tickDue = s.params.tickT := rfl

/-! ### Stamps -/

/-- A stamp depends on the semantics and the time only. -/
theorem stampNow_congr {s t : State} (ht : s.timed = t.timed) (hn : s.now = t.now) : stampNow s = stampNow t := by
  simp [stampNow, ht, hn]

/-- The untimed semantics spends no time. -/
theorem spend_untimed {s : State} (h : s.timed = false) : spend s = s := by
  cases s
  simp_all [spend]

/-- The timed semantics spends the next draw. -/
theorem spend_now_timed {s : State} (h : s.timed = true) : (spend s).now = s.now + drawAt s 0 := by
  simp [spend, h]

/-- After a micro-op the k-th draw to come is what was the one after it. -/
theorem drawAt_spend {s : State} (h : s.timed = true) (k : Nat) : drawAt (spend s) k = drawAt s (k + 1) := by
  simp only [drawAt, spend, h, if_true, List.getElem?_tail]
  have : s.freeIndex + 1 + k = s.freeIndex + (k + 1) := by omega
  rw [this]

end Sys2Proof.Machine
end

