-- ==== Sys2Proof/Laws/Ops.lean ====
section
/-! SUPPORT. Laws/Ops.lean: for each shared operation, once, everything it can do: which fields it leaves alone and what
becomes of the others. -/

namespace Sys2Proof.Machine

/-! ### The chain -/

@[simp] theorem shiftIn_zero (d : Stage) (q : Chain) : (shiftIn d q)[0] = d := by simp [shiftIn]

@[simp] theorem shiftIn_succ (d : Stage) (q : Chain) (k : Nat) (h : k + 1 < 16) : (shiftIn d q)[k + 1] = q[k] := by
  simp [shiftIn]

@[simp] theorem chainOf_getElem (w : Word) (k : Nat) (h : k < 16) : (chainOf w)[k] = some (w.getLsbD k) := by
  simp [chainOf, BitVec.getLsbD_eq_getElem h]

/-! ### PIN -/


@[simp] theorem edge_mode (l : Line) (s : State) : (edge l s).mode = s.mode := by cases l <;> rfl
@[simp] theorem edge_cmd (l : Line) (s : State) : (edge l s).cmd = s.cmd := by cases l <;> rfl
@[simp] theorem edge_upc (l : Line) (s : State) : (edge l s).upc = s.upc := by cases l <;> rfl
@[simp] theorem edge_colbyte (l : Line) (s : State) : (edge l s).colbyte = s.colbyte := by cases l <;> rfl
@[simp] theorem edge_faultCause (l : Line) (s : State) : (edge l s).faultCause = s.faultCause := by cases l <;> rfl
@[simp] theorem edge_pins (l : Line) (s : State) : (edge l s).pins = s.pins := by cases l <;> rfl
@[simp] theorem edge_pf (l : Line) (s : State) : (edge l s).pf = s.pf := by cases l <;> rfl
@[simp] theorem edge_needsRepaint (l : Line) (s : State) : (edge l s).needsRepaint = s.needsRepaint := by cases l <;> rfl
@[simp] theorem edge_needsGameUpdate (l : Line) (s : State) : (edge l s).needsGameUpdate = s.needsGameUpdate := by cases l <;> rfl
@[simp] theorem edge_tickCount (l : Line) (s : State) : (edge l s).tickCount = s.tickCount := by cases l <;> rfl
@[simp] theorem edge_now (l : Line) (s : State) : (edge l s).now = s.now := by cases l <;> rfl
@[simp] theorem edge_caller (l : Line) (s : State) : (edge l s).caller = s.caller := by cases l <;> rfl
@[simp] theorem edge_sched (l : Line) (s : State) : (edge l s).sched = s.sched := by cases l <;> rfl
@[simp] theorem edge_timed (l : Line) (s : State) : (edge l s).timed = s.timed := by cases l <;> rfl
@[simp] theorem edge_params (l : Line) (s : State) : (edge l s).params = s.params := by cases l <;> rfl
@[simp] theorem edge_draws (l : Line) (s : State) : (edge l s).draws = s.draws := by cases l <;> rfl
@[simp] theorem edge_freeIndex (l : Line) (s : State) : (edge l s).freeIndex = s.freeIndex := by cases l <;> rfl
@[simp] theorem edge_tickDue (l : Line) (s : State) : (edge l s).tickDue = s.tickDue := by cases l <;> rfl

@[simp] theorem pinWrite_mode (l : Line) (v : Bit) (s : State) : (pinWrite l v s).mode = s.mode := by
  unfold pinWrite
  split <;> simp
@[simp] theorem pinWrite_cmd (l : Line) (v : Bit) (s : State) : (pinWrite l v s).cmd = s.cmd := by
  unfold pinWrite
  split <;> simp
@[simp] theorem pinWrite_upc (l : Line) (v : Bit) (s : State) : (pinWrite l v s).upc = s.upc := by
  unfold pinWrite
  split <;> simp
@[simp] theorem pinWrite_colbyte (l : Line) (v : Bit) (s : State) : (pinWrite l v s).colbyte = s.colbyte := by
  unfold pinWrite
  split <;> simp
@[simp] theorem pinWrite_faultCause (l : Line) (v : Bit) (s : State) : (pinWrite l v s).faultCause = s.faultCause := by
  unfold pinWrite
  split <;> simp
@[simp] theorem pinWrite_pf (l : Line) (v : Bit) (s : State) : (pinWrite l v s).pf = s.pf := by
  unfold pinWrite
  split <;> simp
@[simp] theorem pinWrite_needsRepaint (l : Line) (v : Bit) (s : State) : (pinWrite l v s).needsRepaint = s.needsRepaint := by
  unfold pinWrite
  split <;> simp
@[simp] theorem pinWrite_needsGameUpdate (l : Line) (v : Bit) (s : State) : (pinWrite l v s).needsGameUpdate = s.needsGameUpdate := by
  unfold pinWrite
  split <;> simp
@[simp] theorem pinWrite_tickCount (l : Line) (v : Bit) (s : State) : (pinWrite l v s).tickCount = s.tickCount := by
  unfold pinWrite
  split <;> simp
@[simp] theorem pinWrite_now (l : Line) (v : Bit) (s : State) : (pinWrite l v s).now = s.now := by
  unfold pinWrite
  split <;> simp
@[simp] theorem pinWrite_caller (l : Line) (v : Bit) (s : State) : (pinWrite l v s).caller = s.caller := by
  unfold pinWrite
  split <;> simp
@[simp] theorem pinWrite_sched (l : Line) (v : Bit) (s : State) : (pinWrite l v s).sched = s.sched := by
  unfold pinWrite
  split <;> simp
@[simp] theorem pinWrite_timed (l : Line) (v : Bit) (s : State) : (pinWrite l v s).timed = s.timed := by
  unfold pinWrite
  split <;> simp
@[simp] theorem pinWrite_params (l : Line) (v : Bit) (s : State) : (pinWrite l v s).params = s.params := by
  unfold pinWrite
  split <;> simp
@[simp] theorem pinWrite_draws (l : Line) (v : Bit) (s : State) : (pinWrite l v s).draws = s.draws := by
  unfold pinWrite
  split <;> simp
@[simp] theorem pinWrite_freeIndex (l : Line) (v : Bit) (s : State) : (pinWrite l v s).freeIndex = s.freeIndex := by
  unfold pinWrite
  split <;> simp
@[simp] theorem pinWrite_tickDue (l : Line) (v : Bit) (s : State) : (pinWrite l v s).tickDue = s.tickDue := by
  unfold pinWrite
  split <;> simp

@[simp] theorem pinWrite_pins (l : Line) (v : Bit) (s : State) : (pinWrite l v s).pins = driveLine s.pins l v := by
  unfold pinWrite
  split <;> simp

/-- S after a pin write: shifted on a CLOCK rise, else kept (R76). -/
theorem pinWrite_shiftS (l : Line) (v : Bit) (s : State) :
    (pinWrite l v s).shiftS
      = if l = .clock ∧ s.pins.clock = false ∧ v = true then shiftIn (some s.pins.data) s.shiftS else s.shiftS := by
  cases l <;> cases v <;> rcases h : s.pins with ⟨d, k, t⟩ <;> cases k <;> cases d <;> cases t <;>
    simp [pinWrite, rises, lineLevel, driveLine, edge, h]

/-- Q after a pin write: a copy of S on a LATCH rise, else kept (R76). -/
theorem pinWrite_outQ (l : Line) (v : Bit) (s : State) :
    (pinWrite l v s).outQ = if l = .latch ∧ s.pins.latch = false ∧ v = true then s.shiftS else s.outQ := by
  cases l <;> cases v <;> rcases h : s.pins with ⟨d, k, t⟩ <;> cases k <;> cases d <;> cases t <;>
    simp [pinWrite, rises, lineLevel, driveLine, edge, h]

/-- The events of a pin write, all stamped with the time of the write (R79, R90). -/
def pinWriteEvents (l : Line) (v : Bit) (s : State) : List Event :=
  .pin l (lineLevel s.pins l) v ::
    (if l = .clock ∧ s.pins.clock = false ∧ v = true then [.shift s.pins.data]
     else if l = .latch ∧ s.pins.latch = false ∧ v = true then [.latch s.shiftS]
     else [])

theorem pinWrite_trace (l : Line) (v : Bit) (s : State) :
    (pinWrite l v s).trace = s.trace ++ (pinWriteEvents l v s).map (fun e => ⟨stampNow s, e⟩) := by
  cases l <;> cases v <;> rcases h : s.pins with ⟨d, k, t⟩ <;> cases k <;> cases d <;> cases t <;>
    simp [pinWrite, pinWriteEvents, rises, lineLevel, driveLine, edge, h, stampNow] <;> rfl


/-! ### The micro-ops: what none of them touches -/

@[simp] theorem performPin_mode (l : Line) (v : Bit) (s : State) : (performPin l v s).mode = s.mode := by simp [performPin]
@[simp] theorem performPin_cmd (l : Line) (v : Bit) (s : State) : (performPin l v s).cmd = s.cmd := by simp [performPin]
@[simp] theorem performPin_upc (l : Line) (v : Bit) (s : State) : (performPin l v s).upc = s.upc := by simp [performPin]
@[simp] theorem performPin_colbyte (l : Line) (v : Bit) (s : State) : (performPin l v s).colbyte = s.colbyte := by simp [performPin]
@[simp] theorem performPin_faultCause (l : Line) (v : Bit) (s : State) : (performPin l v s).faultCause = s.faultCause := by simp [performPin]
@[simp] theorem performPin_pf (l : Line) (v : Bit) (s : State) : (performPin l v s).pf = s.pf := by simp [performPin]
@[simp] theorem performPin_needsRepaint (l : Line) (v : Bit) (s : State) : (performPin l v s).needsRepaint = s.needsRepaint := by simp [performPin]
@[simp] theorem performPin_needsGameUpdate (l : Line) (v : Bit) (s : State) : (performPin l v s).needsGameUpdate = s.needsGameUpdate := by simp [performPin]
@[simp] theorem performPin_tickCount (l : Line) (v : Bit) (s : State) : (performPin l v s).tickCount = s.tickCount := by simp [performPin]
@[simp] theorem performPin_caller (l : Line) (v : Bit) (s : State) : (performPin l v s).caller = s.caller := by simp [performPin]
@[simp] theorem performPin_sched (l : Line) (v : Bit) (s : State) : (performPin l v s).sched = s.sched := by simp [performPin]
@[simp] theorem performPin_timed (l : Line) (v : Bit) (s : State) : (performPin l v s).timed = s.timed := by simp [performPin]
@[simp] theorem performPin_params (l : Line) (v : Bit) (s : State) : (performPin l v s).params = s.params := by simp [performPin]
@[simp] theorem performPin_tickDue (l : Line) (v : Bit) (s : State) : (performPin l v s).tickDue = s.tickDue := by simp [performPin]

@[simp] theorem performPin_pins (l : Line) (v : Bit) (s : State) : (performPin l v s).pins = driveLine s.pins l v := by
  simp [performPin]

@[simp] theorem performPin_shiftS (l : Line) (v : Bit) (s : State) :
    (performPin l v s).shiftS = (pinWrite l v s).shiftS := by simp [performPin]

@[simp] theorem performPin_outQ (l : Line) (v : Bit) (s : State) :
    (performPin l v s).outQ = (pinWrite l v s).outQ := by simp [performPin]

@[simp] theorem performPin_trace (l : Line) (v : Bit) (s : State) :
    (performPin l v s).trace = (pinWrite l v s).trace := by simp [performPin]

@[simp] theorem performWait_cmd (s : State) : (performWait s).cmd = s.cmd := by
  unfold performWait
  split <;> simp
@[simp] theorem performWait_upc (s : State) : (performWait s).upc = s.upc := by
  unfold performWait
  split <;> simp
@[simp] theorem performWait_pf (s : State) : (performWait s).pf = s.pf := by
  unfold performWait
  split <;> simp
@[simp] theorem performWait_needsRepaint (s : State) : (performWait s).needsRepaint = s.needsRepaint := by
  unfold performWait
  split <;> simp
@[simp] theorem performWait_needsGameUpdate (s : State) : (performWait s).needsGameUpdate = s.needsGameUpdate := by
  unfold performWait
  split <;> simp
@[simp] theorem performWait_tickCount (s : State) : (performWait s).tickCount = s.tickCount := by
  unfold performWait
  split <;> simp
@[simp] theorem performWait_caller (s : State) : (performWait s).caller = s.caller := by
  unfold performWait
  split <;> simp
@[simp] theorem performWait_sched (s : State) : (performWait s).sched = s.sched := by
  unfold performWait
  split <;> simp
@[simp] theorem performWait_timed (s : State) : (performWait s).timed = s.timed := by
  unfold performWait
  split <;> simp
@[simp] theorem performWait_params (s : State) : (performWait s).params = s.params := by
  unfold performWait
  split <;> simp
@[simp] theorem performWait_tickDue (s : State) : (performWait s).tickDue = s.tickDue := by
  unfold performWait
  split <;> simp
@[simp] theorem performWait_colbyte (s : State) : (performWait s).colbyte = s.colbyte := by
  unfold performWait
  split <;> simp
@[simp] theorem performWait_pins (s : State) : (performWait s).pins = s.pins := by
  unfold performWait
  split <;> simp
@[simp] theorem performWait_shiftS (s : State) : (performWait s).shiftS = s.shiftS := by
  unfold performWait
  split <;> simp
@[simp] theorem performWait_outQ (s : State) : (performWait s).outQ = s.outQ := by
  unfold performWait
  split <;> simp

@[simp] theorem performReadRow_cmd (j : Nat) (s : State) : (performReadRow j s).cmd = s.cmd := by
  unfold performReadRow
  split <;> simp
@[simp] theorem performReadRow_upc (j : Nat) (s : State) : (performReadRow j s).upc = s.upc := by
  unfold performReadRow
  split <;> simp
@[simp] theorem performReadRow_pf (j : Nat) (s : State) : (performReadRow j s).pf = s.pf := by
  unfold performReadRow
  split <;> simp
@[simp] theorem performReadRow_needsRepaint (j : Nat) (s : State) : (performReadRow j s).needsRepaint = s.needsRepaint := by
  unfold performReadRow
  split <;> simp
@[simp] theorem performReadRow_needsGameUpdate (j : Nat) (s : State) : (performReadRow j s).needsGameUpdate = s.needsGameUpdate := by
  unfold performReadRow
  split <;> simp
@[simp] theorem performReadRow_tickCount (j : Nat) (s : State) : (performReadRow j s).tickCount = s.tickCount := by
  unfold performReadRow
  split <;> simp
@[simp] theorem performReadRow_caller (j : Nat) (s : State) : (performReadRow j s).caller = s.caller := by
  unfold performReadRow
  split <;> simp
@[simp] theorem performReadRow_sched (j : Nat) (s : State) : (performReadRow j s).sched = s.sched := by
  unfold performReadRow
  split <;> simp
@[simp] theorem performReadRow_timed (j : Nat) (s : State) : (performReadRow j s).timed = s.timed := by
  unfold performReadRow
  split <;> simp
@[simp] theorem performReadRow_params (j : Nat) (s : State) : (performReadRow j s).params = s.params := by
  unfold performReadRow
  split <;> simp
@[simp] theorem performReadRow_tickDue (j : Nat) (s : State) : (performReadRow j s).tickDue = s.tickDue := by
  unfold performReadRow
  split <;> simp
@[simp] theorem performReadRow_pins (j : Nat) (s : State) : (performReadRow j s).pins = s.pins := by
  unfold performReadRow
  split <;> simp
@[simp] theorem performReadRow_shiftS (j : Nat) (s : State) : (performReadRow j s).shiftS = s.shiftS := by
  unfold performReadRow
  split <;> simp
@[simp] theorem performReadRow_outQ (j : Nat) (s : State) : (performReadRow j s).outQ = s.outQ := by
  unfold performReadRow
  split <;> simp

@[simp] theorem performDataCol_cmd (i : Fin 8) (s : State) : (performDataCol i s).cmd = s.cmd := by
  unfold performDataCol
  split <;> simp
@[simp] theorem performDataCol_upc (i : Fin 8) (s : State) : (performDataCol i s).upc = s.upc := by
  unfold performDataCol
  split <;> simp
@[simp] theorem performDataCol_pf (i : Fin 8) (s : State) : (performDataCol i s).pf = s.pf := by
  unfold performDataCol
  split <;> simp
@[simp] theorem performDataCol_needsRepaint (i : Fin 8) (s : State) : (performDataCol i s).needsRepaint = s.needsRepaint := by
  unfold performDataCol
  split <;> simp
@[simp] theorem performDataCol_needsGameUpdate (i : Fin 8) (s : State) : (performDataCol i s).needsGameUpdate = s.needsGameUpdate := by
  unfold performDataCol
  split <;> simp
@[simp] theorem performDataCol_tickCount (i : Fin 8) (s : State) : (performDataCol i s).tickCount = s.tickCount := by
  unfold performDataCol
  split <;> simp
@[simp] theorem performDataCol_caller (i : Fin 8) (s : State) : (performDataCol i s).caller = s.caller := by
  unfold performDataCol
  split <;> simp
@[simp] theorem performDataCol_sched (i : Fin 8) (s : State) : (performDataCol i s).sched = s.sched := by
  unfold performDataCol
  split <;> simp
@[simp] theorem performDataCol_timed (i : Fin 8) (s : State) : (performDataCol i s).timed = s.timed := by
  unfold performDataCol
  split <;> simp
@[simp] theorem performDataCol_params (i : Fin 8) (s : State) : (performDataCol i s).params = s.params := by
  unfold performDataCol
  split <;> simp
@[simp] theorem performDataCol_tickDue (i : Fin 8) (s : State) : (performDataCol i s).tickDue = s.tickDue := by
  unfold performDataCol
  split <;> simp
@[simp] theorem performDataCol_colbyte (i : Fin 8) (s : State) : (performDataCol i s).colbyte = s.colbyte := by
  unfold performDataCol
  split <;> simp

@[simp] theorem perform_cmd (op : MicroOp) (s : State) : (perform op s).cmd = s.cmd := by cases op <;> simp [perform]
@[simp] theorem perform_upc (op : MicroOp) (s : State) : (perform op s).upc = s.upc := by cases op <;> simp [perform]
@[simp] theorem perform_pf (op : MicroOp) (s : State) : (perform op s).pf = s.pf := by cases op <;> simp [perform]
@[simp] theorem perform_needsRepaint (op : MicroOp) (s : State) : (perform op s).needsRepaint = s.needsRepaint := by cases op <;> simp [perform]
@[simp] theorem perform_needsGameUpdate (op : MicroOp) (s : State) : (perform op s).needsGameUpdate = s.needsGameUpdate := by cases op <;> simp [perform]
@[simp] theorem perform_tickCount (op : MicroOp) (s : State) : (perform op s).tickCount = s.tickCount := by cases op <;> simp [perform]
@[simp] theorem perform_caller (op : MicroOp) (s : State) : (perform op s).caller = s.caller := by cases op <;> simp [perform]
@[simp] theorem perform_sched (op : MicroOp) (s : State) : (perform op s).sched = s.sched := by cases op <;> simp [perform]
@[simp] theorem perform_timed (op : MicroOp) (s : State) : (perform op s).timed = s.timed := by cases op <;> simp [perform]
@[simp] theorem perform_params (op : MicroOp) (s : State) : (perform op s).params = s.params := by cases op <;> simp [perform]
@[simp] theorem perform_tickDue (op : MicroOp) (s : State) : (perform op s).tickDue = s.tickDue := by cases op <;> simp [perform]

/-! ### What a micro-op can do -/

/-- A micro-op's own check, none of which a PIN has (R126, R133): the row in range, `colbyte` written, the delay kept. -/
def opAllowed (op : MicroOp) (s : State) : Prop :=
  match op with
  | .pin _ _ => True
  | .wait => waitTooShort s = false
  | .readRow j => j ≤ 7
  | .dataCol _ => s.colbyte ≠ none

/-- The cause a micro-op raises where its check fails (R123, R124, R125). -/
def opCause : MicroOp → FaultCause
  | .pin _ _ => .none
  | .wait => .timing
  | .readRow _ => .rowRange
  | .dataCol _ => .unwritten

/-- A micro-op whose check is met changes neither the mode nor the recorded cause. -/
theorem perform_allowed {op : MicroOp} {s : State} (h : opAllowed op s) :
    (perform op s).mode = s.mode ∧ (perform op s).faultCause = s.faultCause := by
  cases op with
  | pin l v => simp [perform]
  | wait => simp [perform, performWait, show waitTooShort s = false from h]
  | readRow j => simp [perform, performReadRow, show ¬ 7 < j from Nat.not_lt.2 h]
  | dataCol i =>
    cases hc : s.colbyte with
    | none => exact absurd hc h
    | some b => simp [perform, performDataCol, hc]

/-- A micro-op whose check fails raises its cause, on the state it found, or, for a WAIT, after its duration (R86, R128). -/
theorem perform_refused {op : MicroOp} {s : State} (h : ¬ opAllowed op s) :
    perform op s = raise (opCause op) none (if op = .wait then spend s else s) := by
  cases op with
  | pin l v => exact absurd trivial h
  | wait =>
    have : waitTooShort s = true := by simpa [opAllowed] using h
    simp [perform, performWait, this, opCause]
  | readRow j =>
    have : 7 < j := Nat.not_le.1 h
    simp [perform, performReadRow, this, opCause]
  | dataCol i =>
    have : s.colbyte = none := by simpa [opAllowed] using h
    simp [perform, performDataCol, this, opCause]

/-- An allowed micro-op's duration passes, and none of it is unaccounted for (R86, R90, R109). -/
theorem perform_time {op : MicroOp} {s : State} (h : opAllowed op s) :
    (perform op s).now = (spend s).now ∧ (perform op s).draws = (spend s).draws
      ∧ (perform op s).freeIndex = (spend s).freeIndex := by
  have pin : ∀ l v, (performPin l v s).now = (spend s).now ∧ (performPin l v s).draws = (spend s).draws
      ∧ (performPin l v s).freeIndex = (spend s).freeIndex := by
    intro l v
    have hd : drawAt (pinWrite l v s) 0 = drawAt s 0 := by simp [drawAt]
    simp [performPin, spend, hd]
  cases op with
  | pin l v => exact pin l v
  | wait => simp [perform, performWait, show waitTooShort s = false from h]
  | readRow j =>
    simp only [perform, performReadRow, show ¬ 7 < j from Nat.not_lt.2 h, if_false]
    exact ⟨rfl, rfl, rfl⟩
  | dataCol i =>
    cases hc : s.colbyte with
    | none => exact absurd hc h
    | some b => simpa [perform, performDataCol, hc] using pin .data (bitOf b i)

/-- The trace after a micro-op begins with the trace before it (R34). -/
theorem perform_trace_prefix (op : MicroOp) (s : State) : ∃ es, (perform op s).trace = s.trace ++ es := by
  cases op with
  | pin l v => exact ⟨_, by rw [perform, performPin_trace, pinWrite_trace]⟩
  | wait =>
    by_cases h : waitTooShort s = true
    · exact ⟨_, by simp only [perform, performWait, h, if_true, raise_trace, spend_trace]; rfl⟩
    · exact ⟨[], by simp [perform, performWait, h]⟩
  | readRow j =>
    by_cases h : 7 < j
    · exact ⟨_, by simp only [perform, performReadRow, h, if_true, raise_trace]; rfl⟩
    · exact ⟨_, by simp only [perform, performReadRow, h, if_false, spend_trace, emit_trace]; rfl⟩
  | dataCol i =>
    cases hc : s.colbyte with
    | none => exact ⟨_, by simp only [perform, performDataCol, hc, raise_trace]; rfl⟩
    | some b => exact ⟨_, by simp only [perform, performDataCol, hc, performPin_trace]; exact pinWrite_trace _ _ _⟩

/-! ### The advance -/

@[simp] theorem advance_cmd (n : Nat) (s : State) : (advance n s).cmd = s.cmd := by
  unfold advance
  split <;> simp
@[simp] theorem advance_colbyte (n : Nat) (s : State) : (advance n s).colbyte = s.colbyte := by
  unfold advance
  split <;> simp
@[simp] theorem advance_faultCause (n : Nat) (s : State) : (advance n s).faultCause = s.faultCause := by
  unfold advance
  split <;> simp
@[simp] theorem advance_pins (n : Nat) (s : State) : (advance n s).pins = s.pins := by
  unfold advance
  split <;> simp
@[simp] theorem advance_shiftS (n : Nat) (s : State) : (advance n s).shiftS = s.shiftS := by
  unfold advance
  split <;> simp
@[simp] theorem advance_outQ (n : Nat) (s : State) : (advance n s).outQ = s.outQ := by
  unfold advance
  split <;> simp
@[simp] theorem advance_pf (n : Nat) (s : State) : (advance n s).pf = s.pf := by
  unfold advance
  split <;> simp
@[simp] theorem advance_needsRepaint (n : Nat) (s : State) : (advance n s).needsRepaint = s.needsRepaint := by
  unfold advance
  split <;> simp
@[simp] theorem advance_needsGameUpdate (n : Nat) (s : State) : (advance n s).needsGameUpdate = s.needsGameUpdate := by
  unfold advance
  split <;> simp
@[simp] theorem advance_tickCount (n : Nat) (s : State) : (advance n s).tickCount = s.tickCount := by
  unfold advance
  split <;> simp
@[simp] theorem advance_now (n : Nat) (s : State) : (advance n s).now = s.now := by
  unfold advance
  split <;> simp
@[simp] theorem advance_caller (n : Nat) (s : State) : (advance n s).caller = s.caller := by
  unfold advance
  split <;> simp
@[simp] theorem advance_sched (n : Nat) (s : State) : (advance n s).sched = s.sched := by
  unfold advance
  split <;> simp
@[simp] theorem advance_timed (n : Nat) (s : State) : (advance n s).timed = s.timed := by
  unfold advance
  split <;> simp
@[simp] theorem advance_params (n : Nat) (s : State) : (advance n s).params = s.params := by
  unfold advance
  split <;> simp
@[simp] theorem advance_draws (n : Nat) (s : State) : (advance n s).draws = s.draws := by
  unfold advance
  split <;> simp
@[simp] theorem advance_freeIndex (n : Nat) (s : State) : (advance n s).freeIndex = s.freeIndex := by
  unfold advance
  split <;> simp
@[simp] theorem advance_tickDue (n : Nat) (s : State) : (advance n s).tickDue = s.tickDue := by
  unfold advance
  split <;> simp

@[simp] theorem settle_cmd (n : Nat) (s : State) : (settle n s).cmd = s.cmd := by
  unfold settle
  split <;> simp
@[simp] theorem settle_colbyte (n : Nat) (s : State) : (settle n s).colbyte = s.colbyte := by
  unfold settle
  split <;> simp
@[simp] theorem settle_faultCause (n : Nat) (s : State) : (settle n s).faultCause = s.faultCause := by
  unfold settle
  split <;> simp
@[simp] theorem settle_pins (n : Nat) (s : State) : (settle n s).pins = s.pins := by
  unfold settle
  split <;> simp
@[simp] theorem settle_shiftS (n : Nat) (s : State) : (settle n s).shiftS = s.shiftS := by
  unfold settle
  split <;> simp
@[simp] theorem settle_outQ (n : Nat) (s : State) : (settle n s).outQ = s.outQ := by
  unfold settle
  split <;> simp
@[simp] theorem settle_pf (n : Nat) (s : State) : (settle n s).pf = s.pf := by
  unfold settle
  split <;> simp
@[simp] theorem settle_needsRepaint (n : Nat) (s : State) : (settle n s).needsRepaint = s.needsRepaint := by
  unfold settle
  split <;> simp
@[simp] theorem settle_needsGameUpdate (n : Nat) (s : State) : (settle n s).needsGameUpdate = s.needsGameUpdate := by
  unfold settle
  split <;> simp
@[simp] theorem settle_tickCount (n : Nat) (s : State) : (settle n s).tickCount = s.tickCount := by
  unfold settle
  split <;> simp
@[simp] theorem settle_now (n : Nat) (s : State) : (settle n s).now = s.now := by
  unfold settle
  split <;> simp
@[simp] theorem settle_caller (n : Nat) (s : State) : (settle n s).caller = s.caller := by
  unfold settle
  split <;> simp
@[simp] theorem settle_sched (n : Nat) (s : State) : (settle n s).sched = s.sched := by
  unfold settle
  split <;> simp
@[simp] theorem settle_timed (n : Nat) (s : State) : (settle n s).timed = s.timed := by
  unfold settle
  split <;> simp
@[simp] theorem settle_params (n : Nat) (s : State) : (settle n s).params = s.params := by
  unfold settle
  split <;> simp
@[simp] theorem settle_draws (n : Nat) (s : State) : (settle n s).draws = s.draws := by
  unfold settle
  split <;> simp
@[simp] theorem settle_freeIndex (n : Nat) (s : State) : (settle n s).freeIndex = s.freeIndex := by
  unfold settle
  split <;> simp
@[simp] theorem settle_tickDue (n : Nat) (s : State) : (settle n s).tickDue = s.tickDue := by
  unfold settle
  split <;> simp

/-- A settled state that was BUSY is BUSY at the next micro-op or IDLE with `Done` (R71). -/
theorem settle_busy {n : Nat} {s : State} (h : s.mode = .busy) : settle n s = advance n s := by simp [settle, h]

/-- A fault stops the command where it is (R128). -/
theorem settle_not_busy {n : Nat} {s : State} (h : s.mode ≠ .busy) : settle n s = s := by simp [settle, h]

/-- The command ends (R19). -/
theorem advance_last {n : Nat} {s : State} (h : s.upc + 1 = n) :
    advance n s = emit (.done s.cmd) { s with mode := .idle, upc := 0 } := by simp [advance, h]

/-- The command goes on (R19). -/
theorem advance_more {n : Nat} {s : State} (h : s.upc + 1 ≠ n) : advance n s = { s with upc := s.upc + 1 } := by
  simp [advance, h]

/-! ### The micro-op step -/

/-- A micro-op step in BUSY within the list (R71). -/
theorem microStep_busy {ops : List MicroOp} {s : State} {op : MicroOp} (hm : s.mode = .busy)
    (ho : ops[s.upc]? = some op) : microStep ops s = .next (settle ops.length (perform op s)) := by
  simp [microStep, hm, ho]

/-- All a micro-op step can answer as a next state: it was BUSY within the list, and the state is settled after the
micro-op at `upc`. -/
theorem microStep_next {ops : List MicroOp} {s t : State} (h : microStep ops s = .next t) :
    s.mode = .busy ∧ ∃ op, ops[s.upc]? = some op ∧ t = settle ops.length (perform op s) := by
  unfold microStep at h
  split at h
  · next hm =>
    split at h
    · next op ho =>
      injection h with h
      exact ⟨hm, op, ho, h.symm⟩
    · cases h
  · cases h
  · cases h

/-! ### Issue -/

/-- Issuing a command word starts its command (R55). -/
theorem issue_ok {w : Word} {i : Instr} {s : State} (h : decode w = .ok i) :
    issue w s = { s with cmd := w, upc := 0, mode := .busy } := by simp [issue, h]

/-- Issuing a reserved word faults (R63). -/
theorem issue_error {w : Word} {g : Reserved} {s : State} (h : decode w = .error g) :
    issue w s = raise .reservedCommand (some w) s := by simp [issue, h]

end Sys2Proof.Machine
end

