-- ==== Sys2Proof/Laws/PerInstr.lean ====
section
/-! SUPPORT. Laws/PerInstr.lean: the opcode field of each command's word, one lemma per command. -/

namespace Sys2Proof.Laws.OpcodeField

/-- The opcode each command's format puts in w[15:12] (R57 to R60); CLEAR_DATA's word is SET_DATA 0's (R68). -/
def opcodeOf : Instr → BitVec 4
  | .setData _ => 0x1
  | .clkLow => 0x1
  | .clkHigh => 0x1
  | .latchLow => 0x1
  | .latchHigh => 0x1
  | .waitD => 0x2
  | .shiftByte _ => 0x3
  | .renderRow _ => 0x4
  | .renderFrame => 0x5
  | .clearData => 0x1

/-- The opcode field of a well-formed command's word is its format's. -/
def Statement (i : Instr) : Prop := i.wellFormed = true → opField (encode i) = opcodeOf i

theorem setData (v : Bit) : Statement (.setData v) := fun _ => by cases v <;> rfl

theorem clkLow : Statement .clkLow := fun _ => rfl

theorem clkHigh : Statement .clkHigh := fun _ => rfl

theorem latchLow : Statement .latchLow := fun _ => rfl

theorem latchHigh : Statement .latchHigh := fun _ => rfl

theorem waitD : Statement .waitD := fun _ => rfl

theorem shiftByte (b : Byte) : Statement (.shiftByte b) := fun _ => by
  have h : ∀ n : Fin 256, opField (formatB (BitVec.ofFin n)) = 0x3#4 := by decide +kernel
  exact h b.toFin

theorem renderRow (j : Nat) : Statement (.renderRow j) := fun _ => by
  have h : ∀ n : Fin 8, opField (0x4#4 ++ 0#9 ++ (BitVec.ofFin n : BitVec 3)) = 0x4#4 := by decide +kernel
  exact h (BitVec.ofNat 3 j).toFin

theorem renderFrame : Statement .renderFrame := fun _ => rfl

theorem clearData : Statement .clearData := fun _ => rfl

end Sys2Proof.Laws.OpcodeField
end

