-- ==== Sys2Proof/Laws/Step.lean ====
section
/-! SUPPORT. Laws/Step.lean: what `exec` and a step of the whole model can answer. -/

namespace Sys2Proof.Machine

/-- Every command's meaning is the micro-op step of its own list (R71, R72). -/
theorem exec_eq_microStep (i : Instr) (s : State) : exec i s = microStep (expand i) s := by cases i <;> rfl

/-- A command's micro-op step in BUSY within its list. -/
theorem exec_busy {i : Instr} {s : State} {op : MicroOp} (hm : s.mode = .busy) (ho : (expand i)[s.upc]? = some op) :
    exec i s = .next (settle (expand i).length (perform op s)) := by
  rw [exec_eq_microStep, microStep_busy hm ho]

/-- All `exec` can answer as a next state. -/
theorem exec_next {i : Instr} {s t : State} (h : exec i s = .next t) :
    s.mode = .busy ∧ ∃ op, (expand i)[s.upc]? = some op ∧ t = settle (expand i).length (perform op s) :=
  microStep_next (exec_eq_microStep i s ▸ h)

/-- `exec` refuses nothing. -/
theorem exec_not_refused (i : Instr) (s : State) (r : Refusal) : exec i s ≠ .refused r := by
  rw [exec_eq_microStep]
  unfold microStep
  split
  · split <;> simp
  · simp
  · simp

/-- A step when the next turn is the main context's. -/
theorem step_main {s : State} (h : MainNext s) : step s = mainTurn (afterTurn s) := by
  rcases h with h | ⟨rest, h⟩
  · have : afterTurn s = s := by
      cases s
      simp_all [afterTurn]
    simp [step, nextTurn, h, this]
  · simp [step, nextTurn, takeTurn, afterTurn, h]

/-- A step when the next turn is another agent's. -/
theorem step_other {s : State} {t : Turn} {rest : List Turn} (h : s.sched = t :: rest) (ht : t ≠ .main) :
    step s = .next (otherTurn t (afterTurn s)) := by
  cases t <;> simp_all [step, nextTurn, takeTurn, afterTurn]

/-- All a step can answer as a next state: the caller's step in IDLE, the running command's in BUSY, or another
agent's turn. -/
theorem step_next {s t : State} (h : step s = .next t) :
    (MainNext s ∧ s.mode = .idle ∧ t = callerStep (afterTurn s))
      ∨ (MainNext s ∧ s.mode = .busy ∧ ∃ i, decode s.cmd = .ok i ∧ exec i (afterTurn s) = .next t)
      ∨ ∃ turn rest, s.sched = turn :: rest ∧ turn ≠ .main ∧ t = otherTurn turn (afterTurn s) := by
  by_cases hm : MainNext s
  · rw [step_main hm] at h
    unfold mainTurn at h
    split at h
    · next hi =>
      injection h with h
      exact .inl ⟨hm, hi, h.symm⟩
    · next hb =>
      split at h
      · next i hd => exact .inr (.inl ⟨hm, hb, i, hd, h⟩)
      · cases h
    · cases h
  · cases hs : s.sched with
    | nil => exact absurd (.inl hs) hm
    | cons turn rest =>
      have ht : turn ≠ .main := fun e => hm (.inr ⟨rest, e ▸ hs⟩)
      rw [step_other hs ht] at h
      injection h with h
      exact .inr (.inr ⟨turn, rest, rfl, ht, h.symm⟩)

/-- The first micro-op steps of a command and the rest of them (R15). -/
theorem execFor_succ_last (i : Instr) (n : Nat) (s u : State) (h : execFor i n s = .next u) :
    execFor i (n + 1) s = exec i u := by
  induction n generalizing s with
  | zero =>
    simp only [execFor] at h
    injection h with h
    subst h
    cases he : exec i s <;> simp [execFor, he]
  | succ n ih =>
    rw [execFor] at h ⊢
    cases he : exec i s with
    | next t =>
      simp only [he] at h ⊢
      exact ih t h
    | fault r => simp [he] at h
    | refused r => simp [he] at h

end Sys2Proof.Machine
end

