-- ==== Sys2Proof/Laws/Run.lean ====
section
/-! SUPPORT. Laws/Run.lean: a command's run as the fold of its micro-ops. Whatever is to be shown of a whole command is
shown of `runOps` over its list, piece by piece. -/

namespace Sys2Proof.Machine

/-- Micro-ops performed one after another, none of them faulting. -/
def runOps (ops : List MicroOp) (s : State) : State := ops.foldl (fun s op => perform op s) s

/-- Every micro-op of a list meets its own check in its turn. -/
def allAllowed : List MicroOp → State → Prop
  | [], _ => True
  | op :: rest, s => opAllowed op s ∧ allAllowed rest (perform op s)

@[simp] theorem runOps_nil (s : State) : runOps [] s = s := rfl

@[simp] theorem runOps_cons (op : MicroOp) (ops : List MicroOp) (s : State) :
    runOps (op :: ops) s = runOps ops (perform op s) := rfl

theorem runOps_append (a b : List MicroOp) (s : State) : runOps (a ++ b) s = runOps b (runOps a s) :=
  List.foldl_append

theorem allAllowed_append (a b : List MicroOp) (s : State) :
    allAllowed (a ++ b) s ↔ allAllowed a s ∧ allAllowed b (runOps a s) := by
  induction a generalizing s with
  | nil => simp [allAllowed]
  | cons op a ih => simp [allAllowed, ih, and_assoc]

/-- No micro-op reads or writes `upc`. -/
theorem perform_upc_irrelevant (op : MicroOp) (n : Nat) (s : State) :
    perform op { s with upc := n } = { perform op s with upc := n } := by
  have pin : ∀ l v, performPin l v { s with upc := n } = { performPin l v s with upc := n } := by
    intro l v
    have : pinWrite l v { s with upc := n } = { pinWrite l v s with upc := n } := by
      have hr' : rises { s with upc := n } l v = rises s l v := rfl
      cases hr : rises s l v <;> cases l <;> simp only [pinWrite, hr', hr, Bool.false_eq_true, if_false, if_true] <;> rfl
    simp only [performPin, this]
    rfl
  cases op with
  | pin l v => exact pin l v
  | wait =>
    have h : waitTooShort { s with upc := n } = waitTooShort s := rfl
    simp only [perform, performWait, h]
    split <;> rfl
  | readRow j =>
    simp only [perform, performReadRow]
    split <;> rfl
  | dataCol i =>
    obtain ⟨m, w, u, col, rest⟩ := s
    cases col with
    | none => rfl
    | some b => exact pin .data (bitOf b i)

theorem opAllowed_upc_irrelevant (op : MicroOp) (n : Nat) (s : State) :
    opAllowed op { s with upc := n } ↔ opAllowed op s := by cases op <;> exact Iff.rfl

/-- The fields no micro-op touches, over a run. -/
theorem runOps_env (ops : List MicroOp) (s : State) :
    let t := runOps ops s
    t.cmd = s.cmd ∧ t.upc = s.upc ∧ t.pf = s.pf ∧ t.needsRepaint = s.needsRepaint
      ∧ t.needsGameUpdate = s.needsGameUpdate ∧ t.tickCount = s.tickCount ∧ t.caller = s.caller ∧ t.sched = s.sched
      ∧ t.timed = s.timed ∧ t.params = s.params ∧ t.tickDue = s.tickDue := by
  induction ops generalizing s with
  | nil => simp
  | cons op ops ih =>
    have := ih (perform op s)
    simpa using this

/-- A run of allowed micro-ops changes neither mode nor cause. -/
theorem runOps_mode {ops : List MicroOp} {s : State} (h : allAllowed ops s) :
    (runOps ops s).mode = s.mode ∧ (runOps ops s).faultCause = s.faultCause := by
  induction ops generalizing s with
  | nil => simp
  | cons op ops ih =>
    have h1 := perform_allowed h.1
    have h2 := ih h.2
    exact ⟨h2.1.trans h1.1, h2.2.trans h1.2⟩

/-- The first k micro-op steps of a started command, none of them the last (R71). -/
theorem execFor_started {i : Instr} {s : State} (hs : Started s) (h : allAllowed (expand i) s) (k : Nat)
    (hk : k < (expand i).length) :
    execFor i k s = .next { runOps ((expand i).take k) s with upc := k } := by
  induction k with
  | zero =>
    have : ({ s with upc := 0 } : State) = s := by
      rw [← hs.2]
    simp [execFor, this]
  | succ k ih =>
    have hk' : k < (expand i).length := by omega
    rw [execFor_succ_last i k s _ (ih hk')]
    have hsplit : expand i = (expand i).take k ++ (expand i)[k] :: (expand i).drop (k + 1) := by simp
    rw [hsplit] at h
    have h1 := (allAllowed_append _ _ _).1 h
    have hm := runOps_mode h1.1
    have ha : opAllowed (expand i)[k] (runOps ((expand i).take k) s) := h1.2.1
    rw [exec_busy (op := (expand i)[k]) (by simpa [hs.1] using hm.1) (by simp [hk'])]
    rw [perform_upc_irrelevant]
    have hb : (perform (expand i)[k] (runOps ((expand i).take k) s)).mode = .busy := by
      rw [(perform_allowed ha).1, hm.1, hs.1]
    rw [settle_busy (by simpa using hb), advance_more (by simpa using (by omega : k + 1 ≠ (expand i).length))]
    rw [List.take_succ_eq_append_getElem hk', runOps_append]
    rfl

/-- The whole of a started command whose micro-ops are all allowed: its last step ends it with `Done` (R19, R71). -/
theorem execAll_started {i : Instr} {s : State} (hs : Started s) (h : allAllowed (expand i) s)
    (hl : 0 < (expand i).length) :
    ∃ u, execFor i ((expand i).length - 1) s = .next u ∧
      exec i u = .next (emit (.done s.cmd) { runOps (expand i) s with mode := .idle, upc := 0 }) ∧
      execAll i s = .next (emit (.done s.cmd) { runOps (expand i) s with mode := .idle, upc := 0 }) := by
  have hk : (expand i).length - 1 < (expand i).length := by omega
  have hu := execFor_started hs h _ hk
  have hstep : exec i { runOps ((expand i).take ((expand i).length - 1)) s with upc := (expand i).length - 1 }
      = .next (emit (.done s.cmd) { runOps (expand i) s with mode := .idle, upc := 0 }) := by
    generalize hkk : (expand i).length - 1 = k at *
    have hsplit : expand i = (expand i).take k ++ (expand i)[k] :: (expand i).drop (k + 1) := by simp
    have h' := h
    rw [hsplit] at h'
    have h1 := (allAllowed_append _ _ _).1 h'
    have hm := runOps_mode h1.1
    have ha : opAllowed (expand i)[k] (runOps ((expand i).take k) s) := h1.2.1
    rw [exec_busy (op := (expand i)[k]) (by simpa [hs.1] using hm.1) (by simp [hk])]
    rw [perform_upc_irrelevant]
    have hb : (perform (expand i)[k] (runOps ((expand i).take k) s)).mode = .busy := by
      rw [(perform_allowed ha).1, hm.1, hs.1]
    rw [settle_busy (by simpa using hb), advance_last (by simpa using (by omega : k + 1 = (expand i).length))]
    have hr : runOps (expand i) s = perform (expand i)[k] (runOps ((expand i).take k) s) := by
      have hdrop : (expand i).drop (k + 1) = [] := by
        rw [List.drop_eq_nil_iff]
        omega
      rw [hdrop] at hsplit
      conv_lhs => rw [hsplit, runOps_append]
      rfl
    rw [hr]
    have hc := (runOps_env ((expand i).take k) s).1
    simp [hc]
  refine ⟨_, hu, hstep, ?_⟩
  have := execFor_succ_last i _ s _ hu
  rw [show (expand i).length - 1 + 1 = (expand i).length by omega] at this
  rw [execAll, this, hstep]

/-- What the end of a command leaves of each field, in terms of its micro-ops' run: the one lemma to cite of a whole
command. -/
theorem execAll_ends {i : Instr} {ops : List MicroOp} {s : State} (he : expand i = ops) (hs : Started s)
    (h : allAllowed ops s) (hl : 0 < ops.length) :
    ∃ u t, execFor i (ops.length - 1) s = .next u ∧ exec i u = .next t ∧ execAll i s = .next t ∧ t.mode = .idle
      ∧ t.upc = 0 ∧ t.shiftS = (runOps ops s).shiftS ∧ t.outQ = (runOps ops s).outQ ∧ t.pins = (runOps ops s).pins
      ∧ t.colbyte = (runOps ops s).colbyte ∧ t.now = (runOps ops s).now
      ∧ eventsOf t = eventsOf (runOps ops s) ++ [.done s.cmd] ∧ t.faultCause = s.faultCause
      ∧ EnvironmentKept s t := by
  subst he
  obtain ⟨u, h1, h2, h3⟩ := execAll_started hs h hl
  have hm := runOps_mode h
  obtain ⟨e1, e2, e3, e4, e5, e6, e7, e8, e9, e10, e11⟩ := runOps_env (expand i) s
  generalize runOps (expand i) s = r at *
  refine ⟨u, _, h1, h2, h3, rfl, rfl, rfl, rfl, rfl, rfl, rfl, ?_, hm.2, ?_⟩
  · simp [eventsOf]
  · exact ⟨e1, e3, fun j => congrArg (fun m => Memory.read m j) e3, e4, e5, e6, e7, e8, e9, e10, e11⟩

/-- The draw a micro-op leaves for the next is the one after its own (R86, R90). -/
theorem drawAt_perform {op : MicroOp} {s : State} (ht : s.timed = true) (h : opAllowed op s) (k : Nat) :
    drawAt (perform op s) k = drawAt s (k + 1) := by
  obtain ⟨-, hd, hf⟩ := perform_time h
  have : drawAt (perform op s) k = drawAt (spend s) k := by simp [drawAt, hd, hf]
  rw [this, drawAt_spend ht]

/-- Kept delays make every WAIT of a list allowed, once its other micro-ops are: the list's rows are in range and its
DATA_COLs come when `colbyte` is written. -/
theorem allAllowed_of_waitsKept {ops : List MicroOp} {s : State} (hw : WaitsKept ops s)
    (hr : ∀ j, MicroOp.readRow j ∈ ops → j ≤ 7)
    (hc : s.colbyte = none → ∀ pre i post, ops = pre ++ MicroOp.dataCol i :: post → ∃ j, MicroOp.readRow j ∈ pre) :
    allAllowed ops s := by
  induction ops generalizing s with
  | nil => trivial
  | cons op ops ih =>
    have ha : opAllowed op s := by
      cases op with
      | pin l v => trivial
      | wait =>
        cases ht : s.timed with
        | false => simp [opAllowed, waitTooShort, ht]
        | true =>
          have := hw ht 0 (by simp) (by simp)
          simp [opAllowed, waitTooShort, ht, this]
      | readRow j => exact hr j List.mem_cons_self
      | dataCol i =>
        intro hn
        obtain ⟨j, hj⟩ := hc hn [] i ops rfl
        cases hj
    refine ⟨ha, ih ?_ (fun j hj => hr j (List.mem_cons_of_mem _ hj)) ?_⟩
    · intro ht k hk hk'
      have ht' : s.timed = true := by simpa using ht
      rw [drawAt_perform ht' ha]
      simpa using hw ht' (k + 1) (by simpa using hk) (by simpa using hk')
    · intro hn pre i post hsplit
      by_cases hread : ∃ j, op = .readRow j
      · obtain ⟨j, rfl⟩ := hread
        have hj : ¬ 7 < j := Nat.not_lt.2 ha
        simp [perform, performReadRow, hj] at hn
      · have hkeep : (perform op s).colbyte = s.colbyte := by
          cases op with
          | pin l v => simp [perform]
          | wait => simp [perform]
          | readRow j => exact absurd ⟨j, rfl⟩ hread
          | dataCol k => simp [perform]
        obtain ⟨j, hj⟩ := hc (hkeep ▸ hn) (op :: pre) i post (by simp [hsplit])
        rcases List.mem_cons.1 hj with h | h
        · exact absurd ⟨j, h.symm⟩ hread
        · exact ⟨j, h⟩

end Sys2Proof.Machine
end

