-- ==== Sys2Proof/Laws/Sequences.lean ====
section
/-! SUPPORT. Laws/Sequences.lean: what the micro-op lists are made of, and what one bit and one byte do to the lines, the
chain and the trace. -/

namespace Sys2Proof.Machine

/-! ### The lists -/

@[simp] theorem bitSeq_length (src : ByteSource) (i : Fin 8) : (bitSeq src i).length = 8 := rfl

@[simp] theorem shiftSeq_length (src : ByteSource) : (shiftSeq src).length = 64 := by
  simp [shiftSeq, List.length_flatMap]

@[simp] theorem rowSeq_length (j : Nat) : (rowSeq j).length = 135 := by simp [rowSeq]

/-- A byte's list bit by bit (R96). -/
theorem shiftSeq_eq (src : ByteSource) :
    shiftSeq src = bitSeq src 0 ++ bitSeq src 1 ++ bitSeq src 2 ++ bitSeq src 3 ++ bitSeq src 4 ++ bitSeq src 5
      ++ bitSeq src 6 ++ bitSeq src 7 := rfl

/-- A frame's list row by row (R114). -/
theorem frameSeq_eq :
    frameSeq = rowSeq 0 ++ rowSeq 1 ++ rowSeq 2 ++ rowSeq 3 ++ rowSeq 4 ++ rowSeq 5 ++ rowSeq 6 ++ rowSeq 7 := by
  have h : List.range 8 = [0, 1, 2, 3, 4, 5, 6, 7] := rfl
  simp only [frameSeq, h, List.flatMap_cons, List.flatMap_nil, List.append_nil, List.append_assoc]

theorem frameSeq_length : frameSeq.length = 1080 := by
  simp only [frameSeq_eq, List.length_append, rowSeq_length]

theorem readRow_not_mem_shiftSeq (src : ByteSource) (j : Nat) : MicroOp.readRow j ∉ shiftSeq src := by
  cases src <;> simp [shiftSeq, bitSeq, dataOp]

theorem dataCol_not_mem_const (b : Byte) (i : Fin 8) : MicroOp.dataCol i ∉ shiftSeq (.const b) := by
  simp [shiftSeq, bitSeq, dataOp]

/-- The rows a row's list reads. -/
theorem readRow_mem_rowSeq {j k : Nat} : MicroOp.readRow k ∈ rowSeq j ↔ k = j := by
  simp [rowSeq, readRow_not_mem_shiftSeq]

/-- The rows a frame's list reads. -/
theorem readRow_mem_frameSeq {k : Nat} : MicroOp.readRow k ∈ frameSeq ↔ k < 8 := by
  simp [frameSeq, readRow_mem_rowSeq]

/-! ### Events -/

@[simp] theorem eventsOf_emit (e : Event) (s : State) : eventsOf (emit e s) = eventsOf s ++ [e] := by
  simp [eventsOf]

@[simp] theorem eventsOf_spend (s : State) : eventsOf (spend s) = eventsOf s := rfl

@[simp] theorem eventsOf_raise (c : FaultCause) (w : Option Word) (s : State) :
    eventsOf (raise c w s) = eventsOf s ++ [.fault c w] := by simp [eventsOf]

theorem eventsOf_performPin (l : Line) (v : Bit) (s : State) :
    eventsOf (performPin l v s) = eventsOf s ++ pinWriteEvents l v s := by
  simp only [eventsOf, performPin_trace, pinWrite_trace, List.map_append, List.map_map]
  congr 1
  exact List.map_id _

/-- Each kind of event is read off a trace piece by piece. -/
theorem pinEvents_append (a b : List Event) : pinEvents (a ++ b) = pinEvents a ++ pinEvents b := List.filterMap_append

theorem shiftEvents_append (a b : List Event) : shiftEvents (a ++ b) = shiftEvents a ++ shiftEvents b :=
  List.filterMap_append

theorem latchEvents_append (a b : List Event) : latchEvents (a ++ b) = latchEvents a ++ latchEvents b :=
  List.filterMap_append

theorem readEvents_append (a b : List Event) : readEvents (a ++ b) = readEvents a ++ readEvents b :=
  List.filterMap_append

/-! ### One bit -/

/-- The byte a source gives in a state (R93). -/
def sourceByte (src : ByteSource) (s : State) : Option Byte :=
  match src with
  | .const b => some b
  | .col => s.colbyte

/-- The data micro-op of a source drives DATA to the source's bit (R93, R110). -/
theorem perform_dataOp {src : ByteSource} {b : Byte} {s : State} (h : sourceByte src s = some b) (i : Fin 8) :
    perform (dataOp src i) s = performPin .data (bitOf b i) s := by
  cases src with
  | const c =>
    injection h with h
    subst h
    rfl
  | col =>
    have : s.colbyte = some b := h
    simp [dataOp, perform, performDataCol, this]

/-- An allowed WAIT only spends time (R86). -/
theorem perform_wait_allowed {s : State} (h : opAllowed .wait s) : perform .wait s = spend s := by
  simp [perform, performWait, show waitTooShort s = false from h]

/-- What one bit leaves (R91, R94). -/
theorem runOps_bitSeq {src : ByteSource} {b : Byte} {s : State} (i : Fin 8) (hb : sourceByte src s = some b)
    (h : allAllowed (bitSeq src i) s) :
    let t := runOps (bitSeq src i) s
    t.pins = ⟨false, true, s.pins.latch⟩ ∧ t.shiftS = shiftIn (some (bitOf b i)) s.shiftS ∧ t.outQ = s.outQ
      ∧ t.colbyte = s.colbyte ∧ eventsOf t = eventsOf s ++ bitEvents s.pins.clock s.pins.data (bitOf b i) := by
  obtain ⟨-, h1, -, h3, -, h5, -, h7, -⟩ := h
  have hsrc : ∀ t : State, t.colbyte = s.colbyte → sourceByte src t = some b := by
    intro t ht
    cases src with
    | const c => exact hb
    | col => exact ht.trans hb
  simp only [bitSeq, runOps_cons, runOps_nil]
  rw [perform_wait_allowed h1] at h3 h5 h7 ⊢
  have hd : perform (dataOp src i) (spend (perform (.pin .clock false) s))
      = performPin .data (bitOf b i) (spend (perform (.pin .clock false) s)) :=
    perform_dataOp (hsrc _ (by simp [perform])) i
  rw [hd] at h3 h5 h7 ⊢
  rw [perform_wait_allowed h3] at h5 h7 ⊢
  rw [perform_wait_allowed h5] at h7 ⊢
  rw [perform_wait_allowed h7]
  rcases hp : s.pins with ⟨d, k, t⟩
  simp [perform, eventsOf_performPin, pinWriteEvents, pinWrite_shiftS, pinWrite_outQ, driveLine, lineLevel, hp, bitEvents]

/-! ### One byte -/

/-- What one byte leaves, from any lines and any chain (R98). -/
theorem runOps_shiftSeq {src : ByteSource} {b : Byte} {s : State} (hb : sourceByte src s = some b)
    (h : allAllowed (shiftSeq src) s) :
    let t := runOps (shiftSeq src) s
    t.pins = ⟨false, true, s.pins.latch⟩
      ∧ t.shiftS = (sentBits b).foldl (fun q v => shiftIn (some v) q) s.shiftS
      ∧ t.outQ = s.outQ ∧ t.colbyte = s.colbyte ∧ eventsOf t = eventsOf s ++ byteEvents s.pins b := by
  have key : ∀ (l : List (Fin 8)) (s : State), sourceByte src s = some b → allAllowed (l.flatMap (bitSeq src)) s →
      s.pins.clock = true → s.pins.data = false →
      let t := runOps (l.flatMap (bitSeq src)) s
      t.pins = ⟨false, true, s.pins.latch⟩
        ∧ t.shiftS = (l.map (bitOf b)).foldl (fun q v => shiftIn (some v) q) s.shiftS
        ∧ t.outQ = s.outQ ∧ t.colbyte = s.colbyte
        ∧ eventsOf t = eventsOf s ++ l.flatMap (fun i => bitEvents true false (bitOf b i)) := by
    intro l
    induction l with
    | nil =>
      intro s _ _ hc hd
      rcases hp : s.pins with ⟨d, k, t⟩
      simp_all
    | cons i l ih =>
      intro s hb h hc hd
      simp only [List.flatMap_cons, allAllowed_append, runOps_append] at h ⊢
      have h1 := runOps_bitSeq i hb h.1
      obtain ⟨hp, hq, ho, hk, he⟩ := h1
      have hb' : sourceByte src (runOps (bitSeq src i) s) = some b := by
        cases src with
        | const c => exact hb
        | col => exact hk.trans hb
      obtain ⟨gp, gq, go, gk, ge⟩ := ih _ hb' h.2 (by simp [hp]) (by simp [hp])
      refine ⟨by simp [gp, hp], by simp [gq, hq], by simp [go, ho], by simp [gk, hk], ?_⟩
      rw [ge, he, hc, hd]
      simp
  obtain ⟨rest, hfin⟩ : ∃ rest, List.finRange 8 = 0 :: rest := ⟨_, rfl⟩
  have hne : ∀ i ∈ rest, i ≠ 0 := by
    have hn := List.nodup_finRange 8
    rw [hfin] at hn
    intro i hi e
    exact (List.nodup_cons.1 hn).1 (e ▸ hi)
  simp only [shiftSeq, hfin, List.flatMap_cons] at h ⊢
  rw [allAllowed_append] at h
  rw [runOps_append]
  obtain ⟨hp, hq, ho, hk, he⟩ := runOps_bitSeq 0 hb h.1
  have hb' : sourceByte src (runOps (bitSeq src 0) s) = some b := by
    cases src with
    | const c => exact hb
    | col => exact hk.trans hb
  obtain ⟨gp, gq, go, gk, ge⟩ := key rest _ hb' h.2 (by simp [hp]) (by simp [hp])
  refine ⟨by simp [gp, hp], ?_, by simp [go, ho], by simp [gk, hk], ?_⟩
  · rw [gq, hq, sentBits, hfin]
    rfl
  · rw [ge, he, byteEvents, hfin, List.flatMap_cons]
    have : rest.flatMap (fun i => bitEvents true false (bitOf b i))
        = rest.flatMap fun k =>
            bitEvents (if k = 0 then s.pins.clock else true) (if k = 0 then s.pins.data else false) (bitOf b k) := by
      apply List.flatMap_congr
      intro i hi
      simp [hne i hi]
    simp [this]

/-- A chain after a list of bits: the last ones in its near stages, the old stages moved away (R80). -/
theorem foldl_shiftIn (bits : List Bit) (q : Chain) (k : Nat) (h : k < 16) :
    (bits.foldl (fun q b => shiftIn (some b) q) q)[k]
      = if hh : k < bits.length then some (bits.reverse[k]'(by simpa using hh)) else q[k - bits.length] := by
  induction bits generalizing q k with
  | nil => simp
  | cons b bits ih =>
    rw [List.foldl_cons, ih]
    split
    · next h1 =>
      have h2 : k < (b :: bits).length := by
        simp only [List.length_cons]
        omega
      rw [dif_pos h2]
      simp only [List.reverse_cons]
      rw [List.getElem_append_left]
    · next h1 =>
      by_cases h2 : k = bits.length
      · subst h2
        simp
      · have h3 : ¬ k < (b :: bits).length := by
          simp only [List.length_cons]
          omega
        rw [dif_neg h3]
        obtain ⟨n, rfl⟩ : ∃ n, k = bits.length + 1 + n := ⟨k - bits.length - 1, by omega⟩
        have e1 : bits.length + 1 + n - bits.length = n + 1 := by omega
        have e2 : bits.length + 1 + n - (b :: bits).length = n := by simp
        simp only [e1, e2]
        simp

theorem sentBits_length (b : Byte) : (sentBits b).length = 8 := rfl

theorem sentBits_getElem (b : Byte) (k : Nat) (h : k < (sentBits b).length) :
    (sentBits b)[k] = bitOf b ⟨k, by simpa [sentBits] using h⟩ := by simp [sentBits]

/-- The chain after a byte: `S' = S[7:0] : rev8(b)` (R98). -/
theorem foldl_sentBits (b : Byte) (q : Chain) :
    (∀ k (h : k < 8), ((sentBits b).foldl (fun q v => shiftIn (some v) q) q)[7 - k] = some (bitOf b ⟨k, h⟩))
      ∧ ∀ k (h : k < 8), ((sentBits b).foldl (fun q v => shiftIn (some v) q) q)[8 + k] = q[k] := by
  constructor
  · intro k h
    rw [foldl_shiftIn, dif_pos (by rw [sentBits_length]; omega)]
    simp only [List.getElem_reverse, sentBits_getElem, sentBits_length]
    simp only [show 8 - 1 - (7 - k) = k by omega]
  · intro k h
    rw [foldl_shiftIn, dif_neg (by rw [sentBits_length]; omega)]
    simp [sentBits_length]

/-! ### Images -/

/-- Bit k of a reversed byte (R14). -/
theorem rev8_getLsbD (b : Byte) (k : Nat) (h : k < 8) : (rev8 b).getLsbD k = b.getLsbD (7 - k) := by
  rw [rev8, BitVec.getLsbD_reverse, BitVec.getMsbD_eq_getLsbD]
  simp [h]

/-- Stage k of a row's image (R112). -/
theorem rowImage_getElem (j : Nat) (v : Byte) (k : Nat) (h : k < 16) :
    (rowImage j v)[k] = some (if k < 8 then v.getLsbD (7 - k) else (rowsel j).getLsbD (15 - k)) := by
  have pair : BitVec.getLsbD (w := 16) (rev8 (rowsel j) ++ rev8 v) k
      = if k < 8 then (rev8 v).getLsbD k else (rev8 (rowsel j)).getLsbD (k - 8) := BitVec.getLsbD_append
  rw [rowImage, chainOf_getElem, pair]
  split
  · next h8 => rw [rev8_getLsbD _ _ h8]
  · next h8 => rw [rev8_getLsbD _ _ (by omega), show 7 - (k - 8) = 15 - k by omega]

/-! ### READ_ROW before DATA_COL -/

/-- In a row every DATA_COL comes after its READ_ROW (R21, R124). -/
theorem readRow_before_dataCol {j : Nat} {pre post : List MicroOp} {i : Fin 8}
    (h : rowSeq j = pre ++ MicroOp.dataCol i :: post) : MicroOp.readRow j ∈ pre := by
  have hsplit : rowSeq j = ([.wait, .pin .latch false, .wait] ++ shiftSeq (.const (rowsel j)))
      ++ MicroOp.readRow j :: (shiftSeq .col ++ [.wait, .pin .latch true, .wait]) := by
    simp [rowSeq]
  rw [hsplit] at h
  rcases List.append_eq_append_iff.1 h with ⟨rest, h1, h2⟩ | ⟨rest, h1, h2⟩
  · cases rest with
    | nil => simp at h2
    | cons op rest =>
      rw [List.cons_append] at h2
      injection h2 with h2 _
      rw [h1, ← h2]
      simp
  · exfalso
    have hmem : MicroOp.dataCol i ∈ [.wait, .pin .latch false, .wait] ++ shiftSeq (.const (rowsel j)) := by
      cases rest with
      | nil =>
        rw [List.nil_append] at h2
        injection h2 with h2 _
        cases h2
      | cons op rest =>
        rw [List.cons_append] at h2
        injection h2 with h2 _
        rw [h1, h2]
        simp
    rcases List.mem_append.1 hmem with hm | hm
    · simp at hm
    · exact dataCol_not_mem_const _ _ hm

end Sys2Proof.Machine
end

