-- ==== Sys2Proof/Laws/Rows.lean ====
section
/-! SUPPORT. Laws/Rows.lean: what a row's and a frame's micro-ops leave, piece by piece, and which of a command's
micro-ops are allowed in every state. -/

namespace Sys2Proof.Machine

/-- A byte of the command word has no READ_ROW and no DATA_COL, so kept delays are all it asks for (R99). -/
theorem allAllowed_shiftSeq_const {b : Byte} {s : State} (hw : WaitsKept (shiftSeq (.const b)) s) :
    allAllowed (shiftSeq (.const b)) s := by
  apply allAllowed_of_waitsKept hw
  · intro j hj; exact absurd hj (readRow_not_mem_shiftSeq _ _)
  · intro _ pre i post h
    exact absurd (by rw [h]; simp) (dataCol_not_mem_const b i)

/-- What a byte's events hold of each kind (R100). -/
theorem byteEvents_kinds (p : Pins) (b : Byte) :
    shiftEvents (byteEvents p b) = sentBits b ∧ latchEvents (byteEvents p b) = [] ∧ readEvents (byteEvents p b) = []
      ∧ (pinEvents (byteEvents p b)).length = 32 := ⟨rfl, rfl, rfl, rfl⟩

/-- The select byte and then the column byte shifted through fill the chain, whatever it held (R112). -/
theorem foldl_rowBytes (j : Nat) (c : Byte) (q : Chain) :
    (sentBits c).foldl (fun q v => shiftIn (some v) q) ((sentBits (rowsel j)).foldl (fun q v => shiftIn (some v) q) q)
      = rowImage j c := by
  have h1 := foldl_sentBits (rowsel j) q
  have h2 := foldl_sentBits c ((sentBits (rowsel j)).foldl (fun q v => shiftIn (some v) q) q)
  apply Vector.ext
  intro k hk
  rcases Nat.lt_or_ge k 8 with h | h
  · have := h2.1 (7 - k) (by omega)
    simp only [show 7 - (7 - k) = k by omega] at this
    rw [this, rowImage_getElem, if_pos h, bitOf]
  · have e := h2.2 (k - 8) (by omega)
    simp only [show 8 + (k - 8) = k by omega] at e
    rw [e]
    have := h1.1 (15 - k) (by omega)
    simp only [show 7 - (15 - k) = k - 8 by omega] at this
    rw [this, rowImage_getElem, if_neg (by omega), bitOf]

/-- The events of a row before its `Done`, from the lines it starts with (R108). -/
def rowEvents (p : Pins) (j : Nat) (v : Byte) : List Event :=
  [.pin .latch p.latch false] ++ byteEvents ⟨p.data, p.clock, false⟩ (rowsel j) ++ [.read j v]
    ++ byteEvents ⟨false, true, false⟩ v ++ [.pin .latch false true, .latch (rowImage j v)]

/-- What a row's micro-ops leave, from any lines and chain (R111, R112). -/
theorem runOps_rowSeq {j : Nat} {s : State} (hj : j ≤ 7) (h : allAllowed (rowSeq j) s) :
    let t := runOps (rowSeq j) s
    let v := Memory.read s.pf j
    t.pins = ⟨false, true, true⟩ ∧ t.shiftS = rowImage j v ∧ t.outQ = rowImage j v ∧ t.colbyte = some v
      ∧ eventsOf t = eventsOf s ++ rowEvents s.pins j v := by
  simp only [rowSeq] at h ⊢
  rw [allAllowed_append, allAllowed_append, allAllowed_append, allAllowed_append] at h
  simp only [runOps_append] at h ⊢
  obtain ⟨⟨⟨⟨h0, h1⟩, h2⟩, h3⟩, h4⟩ := h
  obtain ⟨a1, -, a3, -⟩ := h0
  have e1 : ∀ s1, s1 = runOps [.wait, .pin .latch false, .wait] s →
      s1.pins = ⟨s.pins.data, s.pins.clock, false⟩ ∧ s1.shiftS = s.shiftS ∧ s1.colbyte = s.colbyte ∧ s1.pf = s.pf
        ∧ eventsOf s1 = eventsOf s ++ [.pin .latch s.pins.latch false] := by
    rintro s1 rfl
    simp only [runOps_cons, runOps_nil]
    rw [perform_wait_allowed a1] at a3 ⊢
    rw [perform_wait_allowed a3]
    simp [perform, driveLine, pinWrite_shiftS, eventsOf_performPin, pinWriteEvents, lineLevel]
  have e1' := e1 _ rfl
  clear e1 a1 a3
  generalize runOps [.wait, .pin .latch false, .wait] s = s1 at *
  obtain ⟨p1, q1, c1, m1, v1⟩ := e1'
  obtain ⟨p2, q2, o2, c2, v2⟩ := runOps_shiftSeq (src := .const (rowsel j)) (b := rowsel j) rfl h1
  have m2 := (runOps_env (shiftSeq (.const (rowsel j))) s1).2.2.1
  rw [m1] at m2
  generalize runOps (shiftSeq (.const (rowsel j))) s1 = s2 at *
  have e3 : ∀ s3, s3 = runOps [.readRow j] s2 →
      s3.pins = s2.pins ∧ s3.shiftS = s2.shiftS ∧ s3.colbyte = some (Memory.read s.pf j)
        ∧ eventsOf s3 = eventsOf s2 ++ [.read j (Memory.read s.pf j)] := by
    rintro s3 rfl
    simp only [runOps_cons, runOps_nil, perform, performReadRow, show ¬ 7 < j by omega, if_false, m2]
    refine ⟨rfl, rfl, rfl, ?_⟩
    rw [eventsOf_spend, eventsOf_emit]; rfl
  have e3' := e3 _ rfl
  clear e3
  generalize runOps [.readRow j] s2 = s3 at *
  obtain ⟨p3, q3, c3, v3⟩ := e3'
  obtain ⟨p4, q4, o4, c4, v4⟩ := runOps_shiftSeq (src := .col) (b := Memory.read s.pf j) c3 h3
  generalize runOps (shiftSeq .col) s3 = s4 at *
  obtain ⟨b1, -, b3, -⟩ := h4
  simp only [runOps_cons, runOps_nil]
  rw [perform_wait_allowed b1] at b3 ⊢
  rw [perform_wait_allowed b3]
  have im : s4.shiftS = rowImage j (Memory.read s.pf j) := by rw [q4, q3, q2]; exact foldl_rowBytes _ _ _
  have pp : s4.pins = ⟨false, true, false⟩ := by rw [p4, p3, p2, p1]
  refine ⟨?_, ?_, ?_, ?_, ?_⟩
  · simp [perform, driveLine, pp]
  · simp [perform, pinWrite_shiftS, im]
  · simp [perform, pinWrite_outQ, im, pp]
  · simp [perform, c4, c3]
  · simp only [perform, eventsOf_spend, eventsOf_performPin, v4, v3, v2, v1]
    simp [rowEvents, pinWriteEvents, lineLevel, pp, p1, p2, p3, im]

/-- A row in range asks for kept delays only: its READ_ROW comes before its DATA_COLs (R113). -/
theorem allAllowed_rowSeq {j : Nat} {s : State} (hj : j ≤ 7) (hw : WaitsKept (rowSeq j) s) :
    allAllowed (rowSeq j) s := by
  apply allAllowed_of_waitsKept hw
  · intro k hk; rw [readRow_mem_rowSeq] at hk; omega
  · intro _ pre i post h
    exact ⟨j, readRow_before_dataCol h⟩

/-- The row and column lines that a row's value drives (R29, R112). -/
theorem rowImage_views (j : Nat) (c : Byte) (i : Fin 8) :
    rowOut (rowImage j c) i = some (bitOf (rowsel j) i) ∧ colOut (rowImage j c) i = some (bitOf c i) := by
  rcases i with ⟨i, hi⟩
  constructor
  · rw [rowOut, rowImage_getElem, if_neg (by simp; omega), bitOf]
    simp only [show 15 - (15 - i) = i by omega]
  · rw [colOut, rowImage_getElem, if_pos (by simp; omega), bitOf]
    simp only [show 7 - (7 - i) = i by omega]

/-- A frame asks for kept delays only (R117). -/
theorem allAllowed_frameSeq {s : State} (hw : WaitsKept frameSeq s) : allAllowed frameSeq s := by
  apply allAllowed_of_waitsKept hw
  · intro k hk; rw [readRow_mem_frameSeq] at hk; omega
  · intro _ pre i post h
    refine ⟨0, ?_⟩
    have : ∃ R, frameSeq = rowSeq 0 ++ R := ⟨_, by rw [frameSeq_eq]; simp only [List.append_assoc]; rfl⟩
    obtain ⟨R, hR⟩ := this
    rw [hR] at h
    rcases List.append_eq_append_iff.1 h with ⟨rest, h1, h2⟩ | ⟨rest, h1, h2⟩
    · rw [h1]; exact List.mem_append_left _ (readRow_mem_rowSeq.2 rfl)
    · cases rest with
      | nil => 
        rw [List.append_nil] at h1
        rw [← h1]; exact (readRow_mem_rowSeq.2 rfl)
      | cons op rest =>
        rw [List.cons_append] at h2
        injection h2 with h2 _
        subst h2
        exact readRow_before_dataCol h1

/-- In every command each DATA_COL comes after a READ_ROW (R124). -/
theorem readsRow_before_dataCol {i : Instr} {pre post : List MicroOp} {k : Fin 8}
    (h : expand i = pre ++ .dataCol k :: post) : pre.any MicroOp.readsRow = true := by
  have hrow : ∀ j pre post, rowSeq j = pre ++ .dataCol k :: post → pre.any MicroOp.readsRow = true := by
    intro j pre post h
    have := readRow_before_dataCol h
    exact List.any_eq_true.2 ⟨_, this, rfl⟩
  cases i with
  | shiftByte b =>
    simp only [expand] at h
    exact absurd (h ▸ List.mem_append_right _ List.mem_cons_self) (dataCol_not_mem_const b k)
  | renderRow j => exact hrow j _ _ h
  | renderFrame =>
    have : ∃ R, frameSeq = rowSeq 0 ++ R := ⟨_, by rw [frameSeq_eq]; simp only [List.append_assoc]; rfl⟩
    obtain ⟨R, hR⟩ := this
    simp only [expand, hR] at h
    rcases List.append_eq_append_iff.1 h with ⟨rest, h1, h2⟩ | ⟨rest, h1, h2⟩
    · rw [h1, List.any_append, List.any_eq_true.2 ⟨_, readRow_mem_rowSeq.2 rfl, rfl⟩]; rfl
    · cases rest with
      | nil => 
        rw [List.append_nil] at h1
        rw [← h1]; exact List.any_eq_true.2 ⟨_, readRow_mem_rowSeq.2 rfl, rfl⟩
      | cons op rest =>
        rw [List.cons_append] at h2
        injection h2 with h2 _
        subst h2
        exact hrow 0 _ _ h1
  | _ =>
    simp only [expand] at h
    rcases pre with _ | ⟨x, _ | ⟨y, pre⟩⟩ <;> simp at h

/-- Every READ_ROW of a decoded command is in range (R123). -/
theorem readRow_le_of_decode {w : Word} {i : Instr} (hd : decode w = .ok i) {j : Nat}
    (h : .readRow j ∈ expand i) : j ≤ 7 := by
  have hwf : i.wellFormed = true := by
    unfold decode at hd
    cases hf : opcodeMap.find? (fun r => r.accepts w) with
    | none => simp [hf] at hd
    | some r =>
      simp only [hf, Except.ok.injEq] at hd
      subst hd
      have := List.mem_of_find?_eq_some hf
      simp only [opcodeMap, List.mem_cons, List.mem_nil_iff, or_false] at this
      rcases this with rfl | rfl | rfl | rfl | rfl | rfl | rfl | rfl | rfl <;> try rfl
      simp only [Instr.wellFormed, rowField]
      have := (w.extractLsb' 0 3).isLt
      exact decide_eq_true (by omega)
  cases i with
  | shiftByte b => exact absurd h (readRow_not_mem_shiftSeq _ _)
  | renderRow k => rw [expand, readRow_mem_rowSeq] at h; subst h; simpa [Instr.wellFormed] using hwf
  | renderFrame => rw [expand, readRow_mem_frameSeq] at h; omega
  | _ => simp [expand] at h

/-- Every command has a micro-op (R72). -/
theorem expand_pos (i : Instr) : 0 < (expand i).length := by cases i <;> simp [expand, frameSeq_length]

end Sys2Proof.Machine
end

