-- ==== Sys2Proof/Laws/Scheduler.lean ====
section
/-! SUPPORT. Laws/Scheduler.lean: all that the caller's step and the other agents' turns can do. -/

namespace Sys2Proof.Machine

@[simp] theorem decode_frame_word : decode (encode .renderFrame) = .ok .renderFrame := rfl

/-- The caller enters FAULT only by issuing a reserved word (R122). -/
theorem callerStep_enters_fault {s : State} (hm : s.mode = .idle) (h : (callerStep s).mode = .fault) :
    ∃ words hpc w g, s.caller = .program words hpc ∧ words[hpc]? = some w ∧ decode w = .error g
      ∧ callerStep s = raise .reservedCommand (some w) { s with caller := .program words (hpc + 1) } := by
  unfold callerStep at h ⊢
  cases hc : s.caller with
  | program words hpc =>
    simp only [hc, programStep] at h ⊢
    cases hw : words[hpc]? with
    | none => simp [hw, hm] at h
    | some w =>
      cases hd : decode w with
      | ok i => simp [hw, issue, hd] at h
      | error g => exact ⟨words, hpc, w, g, rfl, hw, hd, by simp [issue, hd]⟩
  | mainLoop p =>
    exfalso
    simp only [hc] at h
    unfold mainLoopStep at h
    split at h <;> try split at h
    all_goals simp [useFree, atPhase, hm, issue, decode_frame_word, elapse, clearGameUpdate, clearRepaint] at h

/-- What no step of the caller changes: neither a pin nor the chain nor `colbyte` nor the tick counter, and the trace
and the time only grow (R42, R137, R148). -/
theorem callerStep_keeps (s : State) :
    (callerStep s).colbyte = s.colbyte ∧ (callerStep s).shiftS = s.shiftS ∧ (callerStep s).outQ = s.outQ ∧ (callerStep s).pins = s.pins
      ∧ s.trace <+: (callerStep s).trace ∧ s.now ≤ (callerStep s).now ∧ (callerStep s).params = s.params
      ∧ (callerStep s).timed = s.timed ∧ (callerStep s).tickCount = s.tickCount := by
  unfold callerStep
  cases hc : s.caller with
  | program words hpc =>
    simp only [programStep]
    cases hw : words[hpc]? with
    | none => simp
    | some w =>
      cases hd : decode w with
      | ok i => simp [issue, hd]
      | error g => simp [issue, hd]
  | mainLoop p =>
    simp only
    unfold mainLoopStep
    split <;> try split
    all_goals simp [useFree, atPhase, issue, decode_frame_word, elapse, clearGameUpdate, clearRepaint]
    split <;> simp

/-- What the turn of an agent other than the main context and reset leaves (R134, R135, R165). -/
theorem otherTurn_keeps {t : Turn} {s : State} (h : ∀ u p, t ≠ .reset u p) :
    (otherTurn t s).mode = s.mode ∧ (otherTurn t s).faultCause = s.faultCause ∧ (otherTurn t s).colbyte = s.colbyte
      ∧ (otherTurn t s).trace = s.trace ∧ s.now ≤ (otherTurn t s).now ∧ (otherTurn t s).params = s.params
      ∧ (otherTurn t s).timed = s.timed ∧ (otherTurn t s).upc = s.upc ∧ (otherTurn t s).cmd = s.cmd
      ∧ (otherTurn t s).caller = s.caller ∧ (otherTurn t s).shiftS = s.shiftS ∧ (otherTurn t s).outQ = s.outQ ∧ (otherTurn t s).pins = s.pins := by
  cases t with
  | reset u p => exact absurd rfl (h u p)
  | timer => simp only [otherTurn, timerTurn]; split <;> simp [timerHandler]
  | elapse d => simp only [otherTurn, elapse]; split <;> simp
  | _ => simp [otherTurn]

end Sys2Proof.Machine
end

