-- ==== Sys2Proof/Tests/Slice0.lean ====
section
/-! SUPPORT. Tests/Slice0.lean: the spec's own vectors (95_test_vectors.md) on single steps and small operations, and for
each statement with hypotheses a witness that meets them. Vectors are named as the spec names them. -/

namespace Sys2Proof.Tests

open Sys2Proof.Machine

/-! ### States to test on -/

/-- Some parameters: DELAY_D = 10 as in the timed vectors, GAME_DIV_N = 3 as in E5. -/
def someParams : Params :=
  { delayD := 10, tickT := 16, gameDivLessOne := 2, gameoverPause := 50, tSU := 10, tH := 10, tWH := 20, tWL := 20,
    tLS := 30, tLW := 20 }

/-- An IDLE state, untimed, everything at 0 or empty, the chain known. -/
def idleState : State :=
  { mode := .idle, cmd := 0, upc := 0, colbyte := none, faultCause := .none, pins := ⟨false, false, false⟩,
    shiftS := chainOf 0, outQ := chainOf 0, pf := [], needsRepaint := false, needsGameUpdate := false, tickCount := 0,
    trace := [], now := 0, caller := .program [] 0, sched := [], timed := false, params := someParams, draws := [],
    freeIndex := 0, tickDue := 16 }

/-- A command word running at a micro-op. -/
def running (w : Word) (upc : Nat) : State := { idleState with mode := .busy, cmd := w, upc := upc }

/-- A command just issued, on given lines and shift stages. -/
def issued (w : Word) (pins : Pins) (s : Word) : State := { running w 0 with pins := pins, shiftS := chainOf s }

/-- The same in the timed semantics, with drawn durations. -/
def timedFrom (s : State) (draws : List Nat) : State := { s with timed := true, draws := draws }

/-- The next state of an outcome. -/
def nextOf : Host.Outcome State Fault Refusal → Option State
  | .next t => some t
  | .fault _ => none
  | .refused _ => none

/-- Lines, S, Q and events of an outcome's next state. -/
def shown (o : Host.Outcome State Fault Refusal) : Option (Pins × Chain × Chain × List Event) :=
  (nextOf o).map fun t => (t.pins, t.shiftS, t.outQ, eventsOf t)

/-! ### Well-formedness, decoding, encoding -/

/-- A row index the encoding has no room for (R60, R111). -/
theorem test_wellFormed_refuses_row_8 : (Instr.renderRow 8).wellFormed = false := by decide
theorem test_wellFormed_admits_row_7 : (Instr.renderRow 7).wellFormed = true := by decide

/-- 95, section 2.1: the words that decode, written out bit by bit from R62. -/
theorem test_decode_pin_words :
    decode 0b0001000000000000#16 = .ok (.setData false) ∧ decode 0b0001000000000001#16 = .ok (.setData true)
      ∧ decode 0b0001010000000000#16 = .ok .clkLow ∧ decode 0b0001010000000001#16 = .ok .clkHigh
      ∧ decode 0b0001100000000000#16 = .ok .latchLow ∧ decode 0b0001100000000001#16 = .ok .latchHigh
      ∧ decode 0b0010000000000000#16 = .ok .waitD := ⟨rfl, rfl, rfl, rfl, rfl, rfl, rfl⟩

theorem test_decode_shift_words :
    decode 0b0011000000000000#16 = .ok (.shiftByte 0x00) ∧ decode 0b0011000010100101#16 = .ok (.shiftByte 0xA5) :=
  ⟨rfl, rfl⟩

theorem test_decode_render_words :
    decode 0b0100000000000000#16 = .ok (.renderRow 0) ∧ decode 0b0100000000000111#16 = .ok (.renderRow 7)
      ∧ decode 0b0101000000000000#16 = .ok .renderFrame := ⟨rfl, rfl, rfl⟩

/-- 95, section 2.1: the INVALID words of the table. -/
theorem test_decode_invalid_words :
    ([0x0000, 0x1002, 0x1200, 0x1C00, 0x1C01, 0x2001, 0x3100, 0x4008, 0x5001, 0x6000, 0xFFFF] : List Word).all
      (fun w => (decode w).toOption.isNone) = true := by decide

/-- The table's numbering is the word's own (R66). -/
theorem test_decodeTableWord :
    decodeTableWord 16 0x30A5 = some (.shiftByte 0xA5) ∧ decodeTableWord 16 0x1000 = some (.setData false)
      ∧ decodeTableWord 16 0x4008 = none := ⟨rfl, rfl, rfl⟩

/-! ### Assembly (R67, R68) -/

theorem test_assemble_shift :
    assembleLine ['S', 'H', 'I', 'F', 'T', '_', 'B', 'Y', 'T', 'E', ' ', '0', 'x', '1', '2', ' ', ';', ' ', 'x']
      = some [0x3012] := by decide

theorem test_assemble_refuses_row_8 :
    assembleLine ['R', 'E', 'N', 'D', 'E', 'R', '_', 'R', 'O', 'W', ' ', '8'] = none := by decide

/-- P5: `.word 0x6000`. -/
theorem test_assemble_raw_word :
    assembleLine ['.', 'w', 'o', 'r', 'd', ' ', '0', 'x', '6', '0', '0', '0'] = some [0x6000] := by decide

theorem test_assemble_clear_data :
    assembleLine ['C', 'L', 'E', 'A', 'R', '_', 'D', 'A', 'T', 'A'] = some [0x1000] := by decide

/-! ### Pin commands (95, section 2.2) -/

/-- V2: the old S[15] is lost. -/
theorem test_V2_clkHigh : shown (exec .clkHigh (issued 0x1401 ⟨true, false, false⟩ 0x8001))
    = some (⟨true, true, false⟩, chainOf 0x0003, chainOf 0,
        [.pin .clock false true, .shift true, .done 0x1401]) := by decide

/-- V4. -/
theorem test_V4_clkLow : shown (exec .clkLow (issued 0x1400 ⟨true, true, false⟩ 0x1234))
    = some (⟨true, false, false⟩, chainOf 0x1234, chainOf 0, [.pin .clock true false, .done 0x1400]) := by decide

/-- V5. -/
theorem test_V5_setData : shown (exec (.setData true) (issued 0x1001 ⟨false, false, false⟩ 0x1234))
    = some (⟨true, false, false⟩, chainOf 0x1234, chainOf 0, [.pin .data false true, .done 0x1001]) := by decide

/-- V6: no edge, no latch. -/
theorem test_V6_latchHigh : shown (exec .latchHigh (issued 0x1801 ⟨true, false, true⟩ 0xABCD))
    = some (⟨true, false, true⟩, chainOf 0xABCD, chainOf 0, [.pin .latch true true, .done 0x1801]) := by decide

/-- V7, with RowOut = D5 and ColOut = B3. -/
theorem test_V7_latchHigh : shown (exec .latchHigh (issued 0x1801 ⟨false, false, false⟩ 0xABCD))
    = some (⟨false, false, true⟩, chainOf 0xABCD, chainOf 0xABCD,
        [.pin .latch false true, .latch (chainOf 0xABCD), .done 0x1801]) := by decide

theorem test_V7_views :
    ((List.finRange 8).all fun i => rowOut (chainOf 0xABCD) i == some (bitOf 0xD5 i)
      && colOut (chainOf 0xABCD) i == some (bitOf 0xB3 i)) = true := by decide

/-- V8. -/
theorem test_V8_latchLow :
    shown (exec .latchLow { issued 0x1800 ⟨false, false, true⟩ 0xABCD with outQ := chainOf 0xABCD })
      = some (⟨false, false, false⟩, chainOf 0xABCD, chainOf 0xABCD, [.pin .latch true false, .done 0x1800]) := by
  decide

/-- V9. -/
theorem test_V9_clearData : shown (exec .clearData (issued 0x1000 ⟨true, true, true⟩ 0xABCD))
    = some (⟨false, true, true⟩, chainOf 0xABCD, chainOf 0, [.pin .data true false, .done 0x1000]) := by decide

/-- V10. -/
theorem test_V10_waitD : shown (exec .waitD (issued 0x2000 ⟨false, true, false⟩ 0x1234))
    = some (⟨false, true, false⟩, chainOf 0x1234, chainOf 0, [.done 0x2000]) := by decide

/-- V11: an unknown stage passes along. -/
theorem test_V11_unknown :
    (nextOf (exec .clkHigh { issued 0x1401 ⟨true, false, false⟩ 0 with shiftS := Vector.replicate 16 none })).map
      (fun t => (t.shiftS[0], t.shiftS[1], t.shiftS[15])) = some (some true, none, none) := by decide

/-- R89's example: WAIT_D at now = 100. -/
theorem test_waitD_timed :
    (nextOf (exec .waitD (timedFrom { running 0x2000 0 with now := 100 } [12]))).map (fun t => (t.now, t.mode))
      = some (112, .idle) := by decide

/-! ### Bytes, rows and frames (95, sections 2.3 and 2.4): single steps and the bytes sent -/

/-- E4. -/
theorem test_E4_rowsel : (List.range 8).map rowsel = [0xFE, 0xFD, 0xFB, 0xF7, 0xEF, 0xDF, 0xBF, 0x7F] := by decide

/-- 2.3: the order of the bits of 0x5A, and `rev8(0x12) = 0x48`. -/
theorem test_sentBits : sentBits 0x5A = [false, true, false, true, true, false, true, false] := by decide
theorem test_rev8 : rev8 0x12 = 0x48 ∧ rev8 0xF0 = 0x0F := by decide

/-- SHIFT_BYTE at its third micro-op drives DATA to bit 0, and at its fifth shifts it in. -/
theorem test_shiftByte_data : (nextOf (exec (.shiftByte 0x01) (running 0x3001 2))).map (fun t => (t.pins, t.upc, t.mode))
    = some (⟨true, false, false⟩, 3, .busy) := by decide
theorem test_shiftByte_shift :
    (nextOf (exec (.shiftByte 0x01) { running 0x3001 4 with pins := ⟨true, false, false⟩ })).map
      (fun t => (t.shiftS == chainOf 0x0001, t.upc)) = some (true, 5) := by decide

/-- RENDER_ROW at its READ_ROW, and at its latch (2.4, row 3 with column byte 81). -/
theorem test_renderRow_read :
    (nextOf (exec (.renderRow 3) { running 0x4003 67 with pf := [(3, 0x81)] })).map
      (fun t => (t.colbyte, eventsOf t)) = some (some 0x81, [.read 3 0x81]) := by decide +kernel
theorem test_renderRow_latch :
    (nextOf (exec (.renderRow 3) { running 0x4003 133 with shiftS := chainOf 0xEF81 })).map
      (fun t => (t.outQ == chainOf 0xEF81, t.pins.latch, t.upc)) = some (true, true, 134) := by decide +kernel
theorem test_rowImages :
    rowImage 1 0xAA = chainOf 0xBF55 ∧ rowImage 5 0x0F = chainOf 0xFBF0 ∧ rowImage 7 0xFF = chainOf 0xFEFF := by decide

/-- RENDER_FRAME at its last micro-op ends, at the READ_ROW of row 7 (f = 945 + 67) it reads that row. -/
theorem test_renderFrame_ends :
    (nextOf (exec .renderFrame (running 0x5000 1079))).map (fun t => (t.mode, t.upc, eventsOf t))
      = some (.idle, 0, [.done 0x5000]) := by decide +kernel
theorem test_renderFrame_reads_row_7 :
    (nextOf (exec .renderFrame { running 0x5000 1012 with pf := [(7, 0x01)] })).map (fun t => t.colbyte)
      = some (some 0x01) := by decide +kernel

/-! ### Faults (95, section 2.5) -/

/-- F1 and F2: a reserved word issued by the caller. -/
def reservedCaller (w : Word) : State :=
  { idleState with caller := .program [w] 0, pins := ⟨false, true, true⟩, outQ := chainOf 0xEF81 }

theorem test_F1_reserved :
    (nextOf (step (reservedCaller 0x6000))).map (fun t => (t.mode, t.faultCause.code, t.caller, eventsOf t))
      = some (.fault, 1, .program [0x6000] 1, [.fault .reservedCommand (some 0x6000)]) := by decide
theorem test_F2_reserved :
    shown (step (reservedCaller 0x1C01))
      = some (⟨false, true, true⟩, chainOf 0, chainOf 0xEF81, [.fault .reservedCommand (some 0x1C01)]) := by decide

/-- F3: in FAULT the caller issues nothing. -/
theorem test_F3_no_step :
    step { idleState with mode := .fault, faultCause := .reservedCommand, caller := .program [0x6000, 0x5000] 1 }
      = .fault (.blockFaulted .reservedCommand) := rfl

/-- F4: READ_ROW(8) of an unbounded index. -/
theorem test_F4_rowRange :
    (nextOf (exec (.renderRow 8) { running 0x4000 67 with colbyte := some 0x55 })).map
      (fun t => (t.mode, t.faultCause.code, t.colbyte, t.upc)) = some (.fault, 2, some 0x55, 67) := by decide

/-- F5: DATA_COL of an unwritten `colbyte`. -/
theorem test_F5_unwritten :
    (nextOf (exec (.renderRow 3) { running 0x4003 70 with pins := ⟨true, false, false⟩ })).map
      (fun t => (t.mode, t.faultCause.code, t.pins.data, t.upc)) = some (.fault, 3, true, 70) := by decide

/-- F6: the first WAIT of a row drawn short. -/
theorem test_F6_timing :
    (nextOf (exec (.renderRow 3) (timedFrom (running 0x4003 0) [9]))).map
      (fun t => (t.mode, t.faultCause.code, t.upc, t.pins)) = some (.fault, 4, 0, ⟨false, false, false⟩) := by decide

/-- F7: the WAIT after bit 0's set-data drawn short. -/
theorem test_F7_timing :
    (nextOf (exec (.shiftByte 0x12) (timedFrom (running 0x3012 3) [9]))).map
      (fun t => (t.mode, t.faultCause.code, t.upc, t.shiftS == chainOf 0))
      = some (.fault, 4, 3, true) := by decide

/-- F8 and R-2: a warm reset keeps S and Q. -/
theorem test_F8_reset :
    (nextOf (step { idleState with
        mode := .fault, faultCause := .timing, outQ := chainOf 0xDF00, sched := [.reset false ⟨true, false, true⟩] })).map
      (fun t => (t.mode, t.faultCause.code, t.outQ == chainOf 0xDF00, t.pins))
      = some (.idle, 0, true, ⟨true, false, true⟩) := by decide

/-- R-1: a power-up reset. -/
theorem test_R1_powerUp :
    (nextOf (step { running 0x5000 500 with sched := [.reset true ⟨true, true, false⟩], trace := [⟨none, .shift true⟩] })).map
      (fun t => (t.mode, t.upc, t.shiftS == Vector.replicate 16 none, t.outQ == Vector.replicate 16 none, t.trace))
      = some (.idle, 0, true, true, []) := by decide

/-! ### Scheduler (95, E5 and section 2.6) -/

/-- E5: the four ticks. -/
theorem test_E5_ticks :
    (List.range 5).map (fun n =>
        let t := timerHandler^[n] idleState
        (t.needsRepaint, t.tickCount, t.needsGameUpdate))
      = [(false, 0, false), (true, 1, false), (true, 2, false), (true, 0, true), (true, 1, true)] := by decide

/-- S1: the main loop issues 5000 when the flag is set. -/
theorem test_S1_issues_frame :
    (nextOf (step { idleState with caller := .mainLoop (.polling [.repaint]), needsRepaint := true })).map
      (fun t => (t.mode, t.cmd, t.upc, t.needsRepaint)) = some (.busy, 0x5000, 0, true) := by decide

/-- S2: a tick within a frame, after which the flag is dropped with the frame. -/
theorem test_S2_tick_in_frame :
    (nextOf (step { running 0x5000 500 with needsRepaint := true, sched := [.timer] })).map
      (fun t => (t.needsRepaint, t.tickCount, t.upc, t.mode)) = some (true, 1, 500, .busy) := by decide
theorem test_S2_flag_dropped :
    (nextOf (step { idleState with caller := .mainLoop (.framing []), needsRepaint := true })).map
      (fun t => t.needsRepaint) = some false := by decide

/-! ### What the host asks of a command after reset -/

theorem test_reset_runs_setData : (nextOf (step (State.reset.withFetchWord 16 0x1001))).isSome = true := rfl
theorem test_reset_runs_shiftByte : (nextOf (step (State.reset.withFetchWord 16 0x30A5))).isSome = true := rfl
theorem test_reset_runs_renderFrame : (nextOf (step (State.reset.withFetchWord 16 0x5000))).isSome = true := rfl
theorem test_reset_issues_reserved :
    (nextOf (step (State.reset.withFetchWord 16 0x6000))).map (fun t => t.faultCause) = some .reservedCommand := rfl

/-! ### Witnesses: states and operands that meet a statement's hypotheses together -/

/-- A started command in each semantics, the timed one with every draw at the contract's bound. -/
def startedRow : State := { running 0x4007 0 with pf := [(7, 0x01)] }
def startedRowTimed : State := timedFrom startedRow (List.replicate 135 10)
def startedFrameTimed : State := timedFrom (running 0x5000 0) (List.replicate 1080 10)

/-- Every draw of a list at the bound keeps the delays of any command no longer than it. -/
theorem waitsKept_of_draws (ops : List MicroOp) (s : State) (n : Nat) (hn : ops.length ≤ n)
    (hd : s.draws = List.replicate n 10) (hp : s.params = someParams) : WaitsKept ops s := by
  intro _ k hk _
  simp [drawAt, hd, hp, show k < n by omega, someParams]

theorem witness_DecodeOfEncode : (Instr.renderRow 7).wellFormed = true ∧ Instr.renderRow 7 ≠ .clearData := by decide
theorem witness_DecodeOfEncode_pseudo : Instr.clearData.wellFormed = true := rfl
theorem witness_EncodeOfDecode : decode 0x4007 = .ok (.renderRow 7) := rfl

/-- One word for each ground of R63, and a state with and one without a recorded cause. -/
theorem witness_ReservedWordsFault :
    ReservedWord 0x0000 ∧ ReservedWord 0x6000 ∧ ReservedWord 0x1C00 ∧ ReservedWord 0x1002 ∧ ReservedWord 0x2001
      ∧ ReservedWord 0x3100 ∧ ReservedWord 0x4008 ∧ ReservedWord 0x5001 ∧ idleState.faultCause = .none := by
  refine ⟨?_, ?_, ?_, ?_, ?_, ?_, ?_, ?_, rfl⟩ <;> unfold ReservedWord <;> decide

/-- A one-character word, an operand, a mnemonic that is not `.word`, a line without `;`, and lines that assemble. -/
theorem witness_AssemblerNamesCommands :
    IsToken ['0'] ∧ IsToken ['W', 'A', 'I', 'T', '_', 'D'] ∧ ['W', 'A', 'I', 'T', '_', 'D'] ≠ ['.', 'w', 'o', 'r', 'd']
      ∧ ';' ∉ ([] : List Char) ∧ assembleLine ['W', 'A', 'I', 'T', '_', 'D'] = some [0x2000] ∧ assemble [] = some [] := by
  refine ⟨by simp [IsToken], by simp [IsToken], by simp, by simp, by decide, rfl⟩

theorem witness_SequenceEntries : (63 < 64) ∧ (1079 < 1080) := by decide

theorem witness_StepRunsDecodedCommand :
    (running 0x4007 134).mode = .busy ∧ decode (running 0x4007 134).cmd = .ok (.renderRow 7)
      ∧ MainNext (running 0x4007 134) := ⟨rfl, rfl, .inl rfl⟩
theorem witness_StepRunsDecodedCommand_scheduled :
    MainNext { running 0x4007 134 with sched := [.main, .timer] } := .inr ⟨[.timer], rfl⟩

theorem witness_CallerIssuesNextWord :
    let s := { idleState with caller := .program [0x5000] 0 }
    s.mode = .idle ∧ MainNext s ∧ s.caller = .program [0x5000] 0 ∧ [(0x5000 : Word)][0]? = some 0x5000
      ∧ decode 0x5000 = .ok .renderFrame := ⟨rfl, .inl rfl, rfl, rfl, rfl⟩
theorem witness_CallerIssuesNextWord_end :
    let s := { idleState with caller := .program [0x5000] 1 }
    s.mode = .idle ∧ MainNext s ∧ s.caller = .program [0x5000] 1 ∧ [(0x5000 : Word)].length ≤ 1 :=
  ⟨rfl, .inl rfl, rfl, by decide⟩

theorem witness_ReservedWordFaultsAtIssue :
    let s := reservedCaller 0x4008
    s.mode = .idle ∧ MainNext s ∧ s.faultCause = .none ∧ s.caller = .program [0x4008] 0
      ∧ [(0x4008 : Word)][0]? = some 0x4008 ∧ decode 0x4008 = .error .reservedBits :=
  ⟨rfl, .inl rfl, rfl, rfl, rfl, rfl⟩

/-- A micro-op in the middle, the last one, and one that faults. -/
theorem witness_MicroOpStep :
    (running 0x3001 62).mode = .busy ∧ (expand (.shiftByte 0x01))[62]? = some (.pin .data false) := ⟨rfl, rfl⟩
theorem witness_MicroOpStep_last :
    (running 0x3001 63).mode = .busy ∧ (expand (.shiftByte 0x01))[63]? = some .wait := ⟨rfl, rfl⟩
theorem witness_MicroOpStep_faults :
    (timedFrom (running 0x3001 63) [9]).mode = .busy ∧ (perform .wait (timedFrom (running 0x3001 63) [9])).mode = .fault :=
  ⟨rfl, by decide⟩

/-- A READ_ROW of row 7, a DATA_COL, and a WAIT drawn at the bound. -/
theorem witness_EveryMicroOpCompletes :
    (running 0x4007 67).mode = .busy ∧ 67 < (expand (.renderRow 7)).length
      ∧ (expand (.renderRow 7))[67]? = some (.readRow 7) ∧ 7 ≤ 7
      ∧ (expand (.renderRow 7))[70]? = some (.dataCol 0)
      ∧ (expand (.renderRow 7))[134]? = some .wait ∧ 134 < (expand (.renderRow 7)).length
      ∧ (timedFrom (running 0x4007 134) [10]).params.delayD ≤ drawAt (timedFrom (running 0x4007 134) [10]) 0 :=
  ⟨rfl, by decide +kernel, rfl, by decide, rfl, rfl, by decide +kernel, by decide⟩

theorem witness_started : Started (running 0x1000 0) ∧ Started (running 0x1400 0) ∧ Started (running 0x1401 0)
    ∧ Started (running 0x1800 0) ∧ Started (running 0x1801 0) := by decide
theorem witness_ClkHigh_edges :
    (issued 0x1401 ⟨true, false, false⟩ 0).pins.clock = false ∧ (issued 0x1401 ⟨true, true, false⟩ 0).pins.clock = true := by
  decide
theorem witness_LatchHigh_edges :
    (issued 0x1801 ⟨true, false, false⟩ 0).pins.latch = false ∧ (issued 0x1801 ⟨true, true, true⟩ 0).pins.latch = true := by
  decide
theorem witness_WaitDCompletes :
    Started (timedFrom (running 0x2000 0) [10]) ∧ WaitsKept (expand .waitD) (timedFrom (running 0x2000 0) [10])
      ∧ (timedFrom (running 0x2000 0) [10]).timed = true :=
  ⟨by decide, waitsKept_of_draws _ _ 1 (by decide) rfl rfl, rfl⟩
theorem witness_WaitDCompletes_untimed :
    Started (running 0x2000 0) ∧ WaitsKept (expand .waitD) (running 0x2000 0) ∧ (running 0x2000 0).timed = false :=
  ⟨by decide, fun h => Bool.noConfusion h, rfl⟩

/-- A draw at the bound and one just below it. -/
theorem witness_WaitContract :
    let s := timedFrom (running 0x2000 0) [10]
    s.timed = true ∧ s.params.delayD ≤ drawAt s 0 := by decide
theorem witness_WaitContract_short :
    let s := timedFrom (running 0x2000 0) [9]
    s.timed = true ∧ drawAt s 0 < s.params.delayD ∧ s.faultCause = .none ∧ s.mode = .busy
      ∧ (expand .waitD)[s.upc]? = some .wait := by decide

theorem witness_OnlyRisingEdgesChangeChain_shift :
    let s := issued 0x1401 ⟨true, false, false⟩ 0
    NoResetNext s ∧ ∃ t, step s = .next t ∧ t.shiftS ≠ s.shiftS :=
  ⟨(by intro _ _ _ h; cases h), _, rfl, by decide⟩
theorem witness_OnlyRisingEdgesChangeChain_latch :
    let s := issued 0x1801 ⟨true, false, false⟩ 0xABCD
    NoResetNext s ∧ ∃ t, step s = .next t ∧ t.outQ ≠ s.outQ :=
  ⟨(by intro _ _ _ h; cases h), _, rfl, by decide⟩

theorem witness_FourPinCommandsShiftOneBit :
    let s := timedFrom idleState (List.replicate 8 10)
    s.mode = .idle ∧ s.timed = true ∧ ∀ k < 4, s.params.delayD ≤ drawAt s (2 * k + 1) := by decide
theorem witness_FourPinCommandsShiftOneBit_untimed :
    idleState.mode = .idle ∧ idleState.timed = false := ⟨rfl, rfl⟩
theorem witness_UnshiftedStagesStayUnknown : (List.replicate 16 true).length ≤ 16 ∧ ([] : List Bit).length ≤ 16 := by decide

/-- Every clause of the frames: each command answers a next state. -/
theorem witness_PinAndByteCommandFrames :
    (∃ t, exec (.setData true) (running 0x1001 0) = .next t) ∧ (∃ t, exec .clearData (running 0x1000 0) = .next t)
      ∧ (∃ t, exec .clkLow (running 0x1400 0) = .next t) ∧ (∃ t, exec .clkHigh (running 0x1401 0) = .next t)
      ∧ (∃ t, exec .latchLow (running 0x1800 0) = .next t) ∧ (∃ t, exec .latchHigh (running 0x1801 0) = .next t)
      ∧ (∃ t, exec .waitD (running 0x2000 0) = .next t)
      ∧ ∃ t, exec (.shiftByte 0xA5) (running 0x30A5 0) = .next t :=
  ⟨⟨_, rfl⟩, ⟨_, rfl⟩, ⟨_, rfl⟩, ⟨_, rfl⟩, ⟨_, rfl⟩, ⟨_, rfl⟩, ⟨_, rfl⟩, ⟨_, rfl⟩⟩
theorem witness_CommandsKeepEnvironment : ∃ t, exec .renderFrame (running 0x5000 1) = .next t := ⟨_, rfl⟩

theorem witness_ShiftByteResult :
    let s := timedFrom (running 0x30A5 0) (List.replicate 64 10)
    Started s ∧ WaitsKept (expand (.shiftByte 0xA5)) s ∧ s.timed = true :=
  ⟨by decide, waitsKept_of_draws _ _ 64 (by decide) rfl rfl, rfl⟩
theorem witness_ShiftSequenceResult :
    let s := timedFrom { running 0x4007 68 with colbyte := some 0xFF } (List.replicate 64 10)
    (ByteSource.col = .const 0xFF ∨ (ByteSource.col = .col ∧ s.colbyte = some 0xFF)) ∧ WaitsKept (shiftSeq .col) s :=
  ⟨.inr ⟨rfl, rfl⟩, waitsKept_of_draws _ _ 64 (by decide) rfl rfl⟩
theorem witness_ShiftByteEvents : Started (running 0x30FF 0) ∧ WaitsKept (expand (.shiftByte 0xFF)) (running 0x30FF 0) :=
  ⟨by decide, fun h => Bool.noConfusion h⟩

/-- The last index in range and the first out of it. -/
theorem witness_ReadRowReadsPlayfield :
    7 ≤ 7 ∧ 7 < 8 ∧ idleState.faultCause = .none ∧ (running 0x4000 67).mode = .busy ∧ (running 0x4000 67).upc = 67
      ∧ (running 0x4000 67).faultCause = .none := by decide
theorem witness_DataColDrivesColumnBit :
    { running 0x4007 70 with colbyte := some 0x80 }.colbyte = some 0x80 ∧ (running 0x4007 70).colbyte = none
      ∧ (running 0x4007 70).faultCause = .none := by decide

theorem witness_RenderRowResult :
    7 ≤ 7 ∧ Started startedRowTimed ∧ WaitsKept (expand (.renderRow 7)) startedRowTimed :=
  ⟨by decide, ⟨rfl, rfl⟩, waitsKept_of_draws _ _ 135 (by decide +kernel) rfl rfl⟩
theorem witness_RenderRowShowsPlayfieldRow :
    ChainTimingOK startedRow.params ∧ Started startedRow ∧ WaitsKept (expand (.renderRow 7)) startedRow :=
  ⟨by decide, by decide, fun h => Bool.noConfusion h⟩
theorem witness_RenderFrameResult :
    Started startedFrameTimed ∧ WaitsKept (expand .renderFrame) startedFrameTimed :=
  ⟨⟨rfl, rfl⟩, waitsKept_of_draws _ _ 1080 (by decide +kernel) rfl rfl⟩

theorem witness_RaiseKeepsFirstCause :
    idleState.faultCause = .none ∧ { idleState with faultCause := .timing }.faultCause ≠ .none := by decide
theorem witness_FaultsArePrecise :
    ∃ t, exec (.renderRow 3) (timedFrom (running 0x4003 0) [9]) = .next t ∧ t.mode = .fault := ⟨_, rfl, by decide⟩

theorem witness_OnlyResetLeavesFault :
    let s := { idleState with mode := .fault, faultCause := .timing, sched := [.timer] }
    s.mode = .fault ∧ NoResetNext s ∧ s.faultCause ≠ .none ∧ ∃ t, step s = .next t :=
  ⟨rfl, (by intro _ _ _ h; simp at h), by decide, _, rfl⟩
theorem witness_OnlyResetLeavesFault_main :
    let s := { idleState with mode := .fault, faultCause := .timing }
    s.mode = .fault ∧ MainNext s := ⟨rfl, .inl rfl⟩
theorem witness_OnlyResetLeavesFault_reset :
    { idleState with mode := .fault, sched := [.reset false ⟨true, true, true⟩] }.sched
      = .reset false ⟨true, true, true⟩ :: [] := rfl

/-- A step into FAULT on each ground that a decoded word can reach: ROW_RANGE is reached by no decoded word (R123). -/
theorem witness_FaultsHaveFourGrounds_reserved :
    ∃ t, step (reservedCaller 0xFFFF) = .next t ∧ (reservedCaller 0xFFFF).mode ≠ .fault ∧ t.mode = .fault
      ∧ (reservedCaller 0xFFFF).faultCause = .none := ⟨_, rfl, by decide, by decide, by decide⟩
theorem witness_FaultsHaveFourGrounds_unwritten :
    ∃ t, step (running 0x4003 70) = .next t ∧ (running 0x4003 70).mode ≠ .fault ∧ t.mode = .fault
      ∧ (running 0x4003 70).faultCause = .none := ⟨_, rfl, by decide, by decide +kernel, by decide⟩
theorem witness_FaultsHaveFourGrounds_timing :
    ∃ t, step (timedFrom (running 0x2000 0) [9]) = .next t ∧ t.mode = .fault := ⟨_, rfl, by decide⟩

theorem witness_OnlyReadRowWritesColbyte :
    NoResetNext (running 0x4003 67) ∧ ∃ t, step (running 0x4003 67) = .next t ∧ t.colbyte ≠ (running 0x4003 67).colbyte :=
  ⟨(by intro _ _ _ h; cases h), _, rfl, by decide +kernel⟩
theorem witness_OnlyGameLogicWritesPlayfield :
    let s := { idleState with sched := [.writeRow 7 0xFF] }
    ∃ t, step s = .next t ∧ t.pf ≠ s.pf := ⟨_, rfl, by decide⟩
theorem witness_OnlyGameLogicWritesPlayfield_loop :
    let s := { idleState with caller := .mainLoop (.gameOver []), pf := [(3, 0xFF)] }
    ∃ t, step s = .next t ∧ t.pf ≠ s.pf := ⟨_, rfl, by decide⟩

/-- The last row written with a value, and written back to what an unlisted row reads as. -/
theorem witness_PlayfieldWriteReadsBack :
    Memory.wf idleState.pf = true ∧ { idleState with sched := [.writeRow 7 0xFF] }.sched = .writeRow 7 0xFF :: []
      ∧ Memory.inRange idleState.pf = true := by decide
theorem witness_PlayfieldWriteReadsBack_clears :
    Memory.wf [(0, 0xFF)] = true ∧ Memory.inRange [(0, 0xFF)] = true ∧ Memory.write [(0, 0xFF)] 0 0 = [] := by decide
theorem witness_TraceGrowsParametersStay :
    NoResetNext (running 0x1001 0) ∧ ∃ t, step (running 0x1001 0) = .next t := ⟨(by intro _ _ _ h; cases h), _, rfl⟩

/-- Untimed; due just now; one unit before it is due. -/
theorem witness_TimerHandlerStep :
    let s := { idleState with sched := [.timer] }
    s.sched = .timer :: [] ∧ s.timed = false := ⟨rfl, rfl⟩
theorem witness_TimerHandlerStep_due :
    let s := { idleState with sched := [.timer], timed := true, now := 16 }
    s.sched = .timer :: [] ∧ s.tickDue ≤ s.now := ⟨rfl, by decide⟩
theorem witness_TimerHandlerStep_not_due :
    let s := { idleState with sched := [.timer], timed := true, now := 15 }
    s.sched = .timer :: [] ∧ s.timed = true ∧ s.now < s.tickDue := ⟨rfl, rfl, by decide⟩
theorem witness_TicksCoalesce : idleState.tickCount = 0 := rfl

theorem witness_HandlersTouchNoBlockState :
    Turn.timer.isHandler = true ∧ Turn.serial.isHandler = true ∧ (Turn.elapse 7).isHandler = true
      ∧ { running 0x5000 500 with sched := [.timer] }.sched = .timer :: [] := ⟨rfl, rfl, rfl, rfl⟩
theorem witness_InterleavingChangesNoValue :
    idleState.timed = false ∧ (∃ words hpc, idleState.caller = .program words hpc)
      ∧ ∀ t ∈ [Turn.timer, .main, .serial, .elapse 3, .main], t = .main ∨ t.isHandler = true :=
  ⟨rfl, ⟨[], 0, rfl⟩, by decide⟩

theorem witness_MainLoopServicesRepaint (p : LoopPhase) (flag : Bit) :
    let s := { idleState with caller := .mainLoop p, needsRepaint := flag }
    s.mode = .idle ∧ MainNext s ∧ s.caller = .mainLoop p ∧ s.needsRepaint = flag := ⟨rfl, .inl rfl, rfl, rfl⟩
theorem witness_MainLoopServices_scheduled (p : LoopPhase) :
    let s := { idleState with caller := .mainLoop p, sched := [.main, .timer] }
    s.mode = .idle ∧ MainNext s ∧ s.caller = .mainLoop p := ⟨rfl, .inr ⟨_, rfl⟩, rfl⟩
theorem witness_MainLoopServicesGameUpdate (p : LoopPhase) (flag : Bit) :
    let s := { idleState with caller := .mainLoop p, needsGameUpdate := flag, timed := true }
    s.mode = .idle ∧ MainNext s ∧ s.caller = .mainLoop p ∧ s.needsGameUpdate = flag ∧ Memory.wf s.pf = true
      ∧ s.timed = true := ⟨rfl, .inl rfl, rfl, rfl, rfl, rfl⟩

/-- Each flag set by a tick, and cleared by the main loop after its service. -/
theorem witness_FlagsHaveOneSetterOneClearer_set :
    let s := { idleState with sched := [.timer], tickCount := 2 }
    NoResetNext s ∧ s.needsRepaint = false ∧ s.needsGameUpdate = false
      ∧ ∃ t, step s = .next t ∧ t.needsRepaint = true ∧ t.needsGameUpdate = true :=
  ⟨(by intro _ _ _ h; simp at h), rfl, rfl, _, rfl, by decide, by decide⟩
theorem witness_FlagsHaveOneSetterOneClearer_repaint :
    let s := { idleState with caller := .mainLoop (.framing []), needsRepaint := true }
    NoResetNext s ∧ ∃ t, step s = .next t ∧ t.needsRepaint = false := ⟨(by intro _ _ _ h; cases h), _, rfl, by decide⟩
theorem witness_FlagsHaveOneSetterOneClearer_gameUpdate :
    let s := { idleState with caller := .mainLoop (.updated []), needsGameUpdate := true }
    NoResetNext s ∧ ∃ t, step s = .next t ∧ t.needsGameUpdate = false := ⟨(by intro _ _ _ h; cases h), _, rfl, by decide⟩

theorem witness_ResetStep (powerUp : Bool) (draw : Pins) :
    { idleState with sched := [.reset powerUp draw] }.sched = .reset powerUp draw :: [] := rfl

/-- The last bit of the second byte, the last bit with one after it, and the two latch writes. -/
theorem witness_SeparationsHoldDelays :
    (7 < 8) ∧ (6 < 7) ∧ ((68 = 3) ∨ (68 = 68)) ∧ ((rowSeq 7)[1]?.any MicroOp.writesLine) = true
      ∧ ((rowSeq 7)[133]?.any MicroOp.writesLine) = true ∧ (1 < 133) := ⟨by decide, by decide, .inr rfl, rfl, rfl, by decide⟩
theorem witness_CommandsTakeTheirDelays :
    let s := timedFrom (running 0x2000 0) [10]
    s.timed = true ∧ Started s ∧ ∃ t, execAll .waitD s = .next t ∧ t.mode = .idle := ⟨rfl, by decide, _, rfl, by decide⟩

/-- An IDLE state and one with a running command meet the invariant and step. -/
theorem witness_StepKeepsInvariant : idleState.Inv ∧ ∃ t, step idleState = .next t :=
  ⟨by constructor <;> simp [idleState, someParams, Memory.wf, Memory.inRange, Params.gameDivN], _, rfl⟩
theorem witness_StepKeepsInvariant_busy : (running 0x2000 0).Inv ∧ ∃ t, step (running 0x2000 0) = .next t := by
  refine ⟨?_, _, rfl⟩
  constructor <;> simp [running, idleState, someParams, Memory.wf, Memory.inRange, Params.gameDivN]
  exact ⟨.waitD, rfl, by decide⟩
theorem witness_OnlyFaultStopsTheBlock : idleState.Inv ∧ idleState.mode ≠ .fault :=
  ⟨witness_StepKeepsInvariant.1, by decide⟩

end Sys2Proof.Tests
end

section
/-! PROOFS. State: what a step can do to each part of the state, and the invariant, assembled into the statements of
10_state.md. -/

namespace Sys2Proof.Machine

/-! ### The micro-op and the advance, field by field -/

/-- Only a READ_ROW writes `colbyte`, to the row it reads (R21, R109). -/
theorem perform_colbyte (op : MicroOp) (s : State) :
    (perform op s).colbyte = s.colbyte
      ∨ ∃ j, op = .readRow j ∧ (perform op s).colbyte = some (Memory.read s.pf j) := by
  cases op with
  | pin l v => exact .inl (performPin_colbyte l v s)
  | wait => exact .inl (performWait_colbyte s)
  | dataCol i => exact .inl (performDataCol_colbyte i s)
  | readRow j =>
    by_cases hj : 7 < j
    · exact .inl (by simp [perform, performReadRow, hj])
    · exact .inr ⟨j, rfl, by simp [perform, performReadRow, hj]⟩

/-- A READ_ROW in range leaves `colbyte` written (R109). -/
theorem perform_readRow_colbyte {j : Nat} (hj : j ≤ 7) (s : State) :
    (perform (.readRow j) s).colbyte = some (Memory.read s.pf j) := by
  simp [perform, performReadRow, Nat.not_lt.2 hj]

/-- No micro-op makes a written `colbyte` unwritten (R21). -/
theorem perform_colbyte_ne_none (op : MicroOp) {s : State} (h : s.colbyte ≠ none) :
    (perform op s).colbyte ≠ none := by
  rcases perform_colbyte op s with he | ⟨j, -, he⟩
  · rwa [he]
  · simp [he]

/-- A recorded cause is kept by every micro-op: `raise` keeps the first one (R22, R130). -/
theorem perform_faultCause_of_ne_none (op : MicroOp) {s : State} (h : s.faultCause ≠ .none) :
    (perform op s).faultCause = s.faultCause := by
  by_cases ha : opAllowed op s
  · exact (perform_allowed ha).2
  · rw [perform_refused ha]
    split <;> simp [h]

theorem now_le_spend (s : State) : s.now ≤ (spend s).now := by
  cases ht : s.timed with
  | false => rw [spend_untimed ht]
  | true => rw [spend_now_timed ht]; exact Nat.le_add_right _ _

/-- No micro-op takes time back (R35). -/
theorem now_le_perform (op : MicroOp) (s : State) : s.now ≤ (perform op s).now := by
  by_cases ha : opAllowed op s
  · rw [(perform_time ha).1]
    exact now_le_spend s
  · rw [perform_refused ha, raise_now]
    split
    · exact now_le_spend s
    · exact le_rfl

/-- The advance adds `Done` to the trace or nothing (R34, R71). -/
theorem trace_prefix_settle (n : Nat) (s : State) : s.trace <+: (settle n s).trace := by
  unfold settle advance
  split
  · split <;> simp
  · exact List.prefix_rfl

/-- The trace of a micro-op step of a command begins with the trace before it (R34). -/
theorem trace_prefix_exec {i : Instr} {s t : State} (h : exec i s = .next t) : s.trace <+: t.trace := by
  obtain ⟨-, op, -, rfl⟩ := exec_next h
  obtain ⟨es, he⟩ := perform_trace_prefix op s
  exact .trans (he ▸ List.prefix_append _ _) (trace_prefix_settle _ _)

/-! ### The caller's step -/

/-- What a step of the caller does, case by case (R137, R147, R148): a program issues its next word or has none left;
the main loop issues a frame, or moves on to another phase, with only game logic touching the playfield. What it does
then to the flags, the time and the free values is left open here. -/
inductive CallerEffect (s : State) : State → Prop
  | issuesNext {words : List Word} {hpc : Nat} {w : Word} (hc : s.caller = .program words hpc)
      (hw : words[hpc]? = some w) : CallerEffect s (issue w { s with caller := .program words (hpc + 1) })
  | programOver {words : List Word} {hpc : Nat} (hc : s.caller = .program words hpc) (hw : words[hpc]? = none) :
      CallerEffect s s
  | issuesFrame {rest : List Service} (hc : s.caller = .mainLoop (.polling (.repaint :: rest)))
      (hflag : s.needsRepaint = true) :
      CallerEffect s (issue (encode .renderFrame) (atPhase (.framing rest) s))
  | movesOn {p next : LoopPhase} {rows : Memory} {repaint gameUpdate : Bit} {now freeIndex : Nat}
      (hc : s.caller = .mainLoop p)
      (hpf : rows = s.pf ∨ (∃ rest, p = .updating rest) ∧ rows = gameRows s.freeIndex s.pf
        ∨ (∃ rest, p = .gameOver rest) ∧ rows = clearRows s.pf) :
      CallerEffect s { s with
        caller := .mainLoop next, pf := rows, needsRepaint := repaint, needsGameUpdate := gameUpdate
        now := now, freeIndex := freeIndex }

/-- Every step of the main loop has one of the effects of a caller. -/
theorem mainLoopStep_effect {p : LoopPhase} {s : State} (hc : s.caller = .mainLoop p) :
    CallerEffect s (mainLoopStep p s) := by
  cases p with
  | polling services =>
    match services with
    | [] => exact .movesOn hc (.inl rfl)
    | .gameUpdate :: rest =>
      simp only [mainLoopStep]
      split <;> exact .movesOn hc (.inl rfl)
    | .repaint :: rest =>
      simp only [mainLoopStep]
      split
      · next hflag => exact .issuesFrame hc hflag
      · exact .movesOn hc (.inl rfl)
  | updating rest =>
    simp only [mainLoopStep]
    split
    · exact .movesOn hc (.inl rfl)
    · exact .movesOn hc (.inr (.inl ⟨⟨rest, rfl⟩, rfl⟩))
  | gameOver rest => exact .movesOn hc (.inr (.inr ⟨⟨rest, rfl⟩, rfl⟩))
  | updated rest => exact .movesOn hc (.inl rfl)
  | framing rest => exact .movesOn hc (.inl rfl)

/-- All that the caller's step can do. -/
theorem callerStep_effect (s : State) : CallerEffect s (callerStep s) := by
  unfold callerStep
  split
  · next words hpc hc =>
    unfold programStep
    split
    · next w hw => exact .issuesNext hc hw
    · next hw => exact .programOver hc hw
  · next p hc => exact mainLoopStep_effect hc

theorem issue_pf (w : Word) (s : State) : (issue w s).pf = s.pf := by
  cases hd : decode w with
  | ok i => rw [issue_ok hd]
  | error g => rw [issue_error hd, raise_pf]

/-- A recorded cause is kept by an issue (R22, R130). -/
theorem issue_faultCause_of_ne_none (w : Word) {s : State} (h : s.faultCause ≠ .none) :
    (issue w s).faultCause = s.faultCause := by
  cases hd : decode w with
  | ok i => rw [issue_ok hd]
  | error g => simp [issue_error hd, h]

/-- A recorded cause is kept by the caller (R22). -/
theorem callerStep_faultCause_of_ne_none {s : State} (h : s.faultCause ≠ .none) :
    (callerStep s).faultCause = s.faultCause := by
  generalize ht : callerStep s = t
  cases ht ▸ callerStep_effect s with
  | issuesNext hc hw => exact issue_faultCause_of_ne_none _ h
  | programOver hc hw => rfl
  | issuesFrame hc hflag => exact issue_faultCause_of_ne_none _ h
  | movesOn hc hpf => rfl

/-- The caller changes the playfield only in GameUpdate or at the end of the GameOver pause (R32, R147). -/
theorem callerStep_pf_ne {s : State} (h : (callerStep s).pf ≠ s.pf) :
    ∃ rest, s.caller = .mainLoop (.updating rest) ∨ s.caller = .mainLoop (.gameOver rest) := by
  generalize ht : callerStep s = t at h
  cases ht ▸ callerStep_effect s with
  | issuesNext hc hw => exact absurd (issue_pf _ _) h
  | programOver hc hw => exact absurd rfl h
  | issuesFrame hc hflag => exact absurd (issue_pf _ _) h
  | movesOn hc hpf =>
    rcases hpf with he | ⟨⟨rest, rfl⟩, -⟩ | ⟨⟨rest, rfl⟩, -⟩
    · exact absurd he h
    · exact ⟨rest, .inl hc⟩
    · exact ⟨rest, .inr hc⟩

/-! ### The other agents' turns -/

/-- Of the other agents only game logic's write changes the playfield (R32, R135, R154). -/
theorem otherTurn_pf {turn : Turn} {s : State} (h : ∀ j v, turn ≠ .writeRow j v) : (otherTurn turn s).pf = s.pf := by
  cases turn with
  | writeRow j v => exact absurd rfl (h j v)
  | timer => simp only [otherTurn, timerTurn]; split <;> rfl
  | main => rfl
  | serial => rfl
  | elapse d => rfl
  | reset u p => rfl

/-- No agent, reset included, changes the parameters or the semantics (R25, R35). -/
theorem otherTurn_params_timed (turn : Turn) (s : State) :
    (otherTurn turn s).params = s.params ∧ (otherTurn turn s).timed = s.timed := by
  cases turn with
  | timer => simp only [otherTurn, timerTurn]; split <;> exact ⟨rfl, rfl⟩
  | writeRow j v => exact ⟨rfl, rfl⟩
  | main => exact ⟨rfl, rfl⟩
  | serial => exact ⟨rfl, rfl⟩
  | elapse d => exact ⟨rfl, rfl⟩
  | reset u p => exact ⟨rfl, rfl⟩

/-- A turn that is not a reset's, where the next is none. -/
theorem NoResetNext.ne_reset {s : State} {turn : Turn} {rest : List Turn} (h : NoResetNext s)
    (hs : s.sched = turn :: rest) (u : Bool) (p : Pins) : turn ≠ .reset u p := by
  rintro rfl
  exact h u p rest hs

/-! ### The invariant -/

/-- The invariant speaks of the block, the caller, the playfield and the tick counter only, and of `colbyte` only that
it is written. -/
theorem State.Inv.of_agree {s t : State} (h : s.Inv) (hmode : t.mode = s.mode) (hcmd : t.cmd = s.cmd)
    (hupc : t.upc = s.upc) (hcol : s.colbyte ≠ none → t.colbyte ≠ none) (hcause : t.faultCause = s.faultCause)
    (hcaller : t.caller = s.caller) (hwf : Memory.wf t.pf = true) (hrange : Memory.inRange t.pf = true)
    (htick : t.tickCount < t.params.gameDivN) : t.Inv where
  playfield_wf := hwf
  playfield_inRange := hrange
  tick_below := htick
  fault_recorded := by rw [hmode, hcause]; exact h.fault_recorded
  unreachable_causes := by rw [hcause]; exact h.unreachable_causes
  idle_upc := by rw [hmode, hupc]; exact h.idle_upc
  busy_upc := by rw [hmode, hcmd, hupc]; exact h.busy_upc
  busy_colbyte := by
    rw [hmode, hcmd, hupc]
    exact fun hb i hd hr => hcol (h.busy_colbyte hb i hd hr)
  caller_index := by rw [hcaller]; exact h.caller_index
  loop_frame := by rw [hmode, hcmd, hcaller]; exact h.loop_frame

/-- Taking a turn off the schedule keeps the invariant. -/
theorem afterTurn_keeps_inv {s : State} (h : s.Inv) : (afterTurn s).Inv :=
  h.of_agree rfl rfl rfl id rfl rfl h.playfield_wf h.playfield_inRange h.tick_below

/-- Outside FAULT no cause is recorded (R22). -/
theorem State.Inv.faultCause_eq_none {s : State} (h : s.Inv) (hm : s.mode ≠ .fault) : s.faultCause = .none := by
  by_contra hc
  exact hm (h.fault_recorded.2 hc)

/-- A fault on RESERVED_COMMAND or TIMING keeps the invariant (R130). -/
theorem raise_keeps_inv {c : FaultCause} {s : State} (h : s.Inv) (hm : s.mode ≠ .fault)
    (hc : c = .reservedCommand ∨ c = .timing) (w : Option Word) : (raise c w s).Inv := by
  have hcause : (raise c w s).faultCause = c := by simp [h.faultCause_eq_none hm]
  exact {
    playfield_wf := h.playfield_wf
    playfield_inRange := h.playfield_inRange
    tick_below := h.tick_below
    fault_recorded := by
      rw [hcause]
      rcases hc with rfl | rfl <;> simp
    unreachable_causes := by
      rw [hcause]
      rcases hc with rfl | rfl <;> simp
    idle_upc := by simp
    busy_upc := by simp
    busy_colbyte := by simp
    caller_index := h.caller_index
    loop_frame := by simp }

/-- In IDLE the caller may go anywhere within its program, and the main loop to any phase. -/
theorem setCaller_keeps_inv {s : State} (h : s.Inv) (hm : s.mode = .idle) {c : Caller}
    (hc : ∀ words hpc, c = .program words hpc → hpc ≤ words.length) : { s with caller := c }.Inv :=
  { h with
    caller_index := hc
    loop_frame := fun _ _ hb => nomatch hm.symm.trans hb }

/-- An issue in IDLE keeps the invariant, if the main loop issues nothing but frames (R49, R55, R63). -/
theorem issue_keeps_inv {w : Word} {s : State} (h : s.Inv) (hm : s.mode = .idle)
    (hloop : ∀ p, s.caller = .mainLoop p → inFrame p = true ∧ w = 0x5000) : (issue w s).Inv := by
  have hnone : s.faultCause = .none := h.faultCause_eq_none (by simp [hm])
  cases hd : decode w with
  | ok i =>
    rw [issue_ok hd]
    exact {
      playfield_wf := h.playfield_wf
      playfield_inRange := h.playfield_inRange
      tick_below := h.tick_below
      fault_recorded := by simp [hnone]
      unreachable_causes := h.unreachable_causes
      idle_upc := by simp
      busy_upc := fun _ => ⟨i, hd, expand_pos i⟩
      busy_colbyte := by simp
      caller_index := h.caller_index
      loop_frame := fun p hp _ => hloop p hp }
  | error g =>
    rw [issue_error hd]
    exact raise_keeps_inv h (by simp [hm]) (.inl rfl) _

/-- The caller's step keeps the invariant. -/
theorem callerStep_keeps_inv {s : State} (h : s.Inv) (hm : s.mode = .idle) : (callerStep s).Inv := by
  have atLoop (p : LoopPhase) : (atPhase p s).Inv := setCaller_keeps_inv h hm (by simp)
  generalize ht : callerStep s = t
  cases ht ▸ callerStep_effect s with
  | @issuesNext words hpc w hc hw =>
    have hlt : hpc < words.length := (List.getElem?_eq_some_iff.1 hw).1
    refine issue_keeps_inv (setCaller_keeps_inv h hm ?_) hm (by simp)
    rintro _ _ ⟨⟩
    exact hlt
  | programOver hc hw => exact h
  | issuesFrame hc hflag =>
    refine issue_keeps_inv (atLoop _) hm ?_
    rintro _ ⟨⟩
    exact ⟨rfl, rfl⟩
  | @movesOn p next rows _ _ _ _ hc hpf =>
    have hrows : Memory.wf rows = true ∧ Memory.inRange rows = true := by
      rcases hpf with rfl | ⟨-, rfl⟩ | ⟨-, rfl⟩
      · exact ⟨h.playfield_wf, h.playfield_inRange⟩
      · exact gameRows_wf _ h.playfield_wf h.playfield_inRange
      · exact clearRows_wf h.playfield_wf h.playfield_inRange
    exact (atLoop next).of_agree rfl rfl rfl id rfl rfl hrows.1 hrows.2 h.tick_below

/-- In a running command only a WAIT can fail its check: every READ_ROW of a command word is in range, and a DATA_COL
comes after a READ_ROW (R123, R124). -/
theorem State.Inv.opAllowed_of_ne_wait {s : State} {i : Instr} {op : MicroOp} (h : s.Inv) (hb : s.mode = .busy)
    (hd : decode s.cmd = .ok i) (ho : (expand i)[s.upc]? = some op) (hop : op ≠ .wait) : opAllowed op s := by
  obtain ⟨hlt, hget⟩ := List.getElem?_eq_some_iff.1 ho
  cases op with
  | pin l v => trivial
  | wait => exact absurd rfl hop
  | readRow j => exact readRow_le_of_decode hd (hget ▸ List.getElem_mem hlt)
  | dataCol k =>
    have hsplit : expand i = (expand i).take s.upc ++ .dataCol k :: (expand i).drop (s.upc + 1) := by
      rw [← hget]
      simp
    exact h.busy_colbyte hb i hd (readsRow_before_dataCol hsplit)

/-- A micro-op that is allowed, or is a WAIT, keeps the invariant: a short WAIT raises TIMING (R132). -/
theorem perform_keeps_inv {op : MicroOp} {s : State} (h : s.Inv) (hm : s.mode ≠ .fault)
    (hop : op ≠ .wait → opAllowed op s) : (perform op s).Inv := by
  by_cases ha : opAllowed op s
  · obtain ⟨hmode, hcause⟩ := perform_allowed ha
    exact h.of_agree hmode (perform_cmd op s) (perform_upc op s) (perform_colbyte_ne_none op) hcause
      (perform_caller op s) (by simpa using h.playfield_wf) (by simpa using h.playfield_inRange)
      (by simpa using h.tick_below)
  · obtain rfl : op = .wait := by
      by_contra hne
      exact ha (hop hne)
    have hspend : (spend s).Inv :=
      h.of_agree rfl rfl rfl id rfl rfl h.playfield_wf h.playfield_inRange h.tick_below
    rw [perform_refused ha, if_pos rfl]
    exact raise_keeps_inv hspend hm (.inr rfl) none

/-- The advance keeps the invariant, if `colbyte` is written after a READ_ROW (R19, R21). -/
theorem advance_keeps_inv {i : Instr} {s : State} (h : s.Inv) (hb : s.mode = .busy) (hd : decode s.cmd = .ok i)
    (hread : ∀ j, (expand i)[s.upc]? = some (.readRow j) → s.colbyte ≠ none) :
    (advance (expand i).length s).Inv := by
  have hlt : s.upc < (expand i).length := by
    obtain ⟨i', hd', hlt⟩ := h.busy_upc hb
    obtain rfl : i' = i := by simpa [hd] using hd'.symm
    exact hlt
  by_cases hlast : s.upc + 1 = (expand i).length
  · rw [advance_last hlast]
    exact {
      playfield_wf := h.playfield_wf
      playfield_inRange := h.playfield_inRange
      tick_below := h.tick_below
      fault_recorded := by simp [h.faultCause_eq_none (by simp [hb])]
      unreachable_causes := h.unreachable_causes
      idle_upc := by simp
      busy_upc := by simp
      busy_colbyte := by simp
      caller_index := h.caller_index
      loop_frame := by simp }
  · rw [advance_more hlast]
    have hcol : ((expand i).take (s.upc + 1)).any MicroOp.readsRow = true → s.colbyte ≠ none := by
      rw [List.take_add_one, List.any_append, Bool.or_eq_true, List.any_eq_true (l := Option.toList _)]
      rintro (hbefore | ⟨op, hop, hreads⟩)
      · exact h.busy_colbyte hb i hd hbefore
      · cases op with
        | readRow j => exact hread j (Option.mem_toList.1 hop)
        | pin l v => cases hreads
        | wait => cases hreads
        | dataCol k => cases hreads
    exact { h with
      idle_upc := fun hidle => nomatch hb.symm.trans hidle
      busy_upc := fun _ => ⟨i, hd, by simp only; omega⟩
      busy_colbyte := fun _ i' hd' hr => by
        obtain rfl : i' = i := by simpa [hd] using hd'.symm
        exact hcol hr }

/-- A micro-op step of the running command keeps the invariant. -/
theorem exec_keeps_inv {i : Instr} {s t : State} (h : s.Inv) (hd : decode s.cmd = .ok i)
    (he : exec i s = .next t) : t.Inv := by
  obtain ⟨hb, op, ho, rfl⟩ := exec_next he
  have hallowed : op ≠ .wait → opAllowed op s := h.opAllowed_of_ne_wait hb hd ho
  have hinv : (perform op s).Inv := perform_keeps_inv h (by simp [hb]) hallowed
  by_cases hbusy : (perform op s).mode = .busy
  · rw [settle_busy hbusy]
    refine advance_keeps_inv hinv hbusy (by simpa using hd) fun j hj => ?_
    obtain rfl : op = .readRow j := by simpa [ho] using hj
    simp [perform_readRow_colbyte (hallowed (by simp))]
  · rwa [settle_not_busy hbusy]

/-- A tick leaves the counter below its threshold (R136). -/
theorem tickNext_lt (s : State) (h : s.tickCount < s.params.gameDivN) : tickNext s < s.params.gameDivN := by
  unfold tickNext
  split <;> omega

/-- A reset keeps the invariant (R154). -/
theorem resetStep_keeps_inv {s : State} (h : s.Inv) (u : Bool) (p : Pins) : (resetStep u p s).Inv where
  playfield_wf := h.playfield_wf
  playfield_inRange := h.playfield_inRange
  tick_below := Nat.succ_pos _
  fault_recorded := by simp
  unreachable_causes := by simp
  idle_upc := by simp
  busy_upc := by simp
  busy_colbyte := by simp
  caller_index := fun words hpc hc => by
    rw [resetStep_caller] at hc
    cases hs : s.caller with
    | program _ _ =>
      obtain ⟨-, rfl⟩ : _ ∧ 0 = hpc := by simpa [hs, restartCaller] using hc
      exact Nat.zero_le _
    | mainLoop _ => simp [hs, restartCaller] at hc
  loop_frame := by simp

/-- A turn of another agent keeps the invariant. -/
theorem otherTurn_keeps_inv {s : State} (h : s.Inv) (turn : Turn) : (otherTurn turn s).Inv := by
  cases turn with
  | main => exact h
  | serial => exact h
  | elapse d => exact h.of_agree rfl rfl rfl id rfl rfl h.playfield_wf h.playfield_inRange h.tick_below
  | reset u p => exact resetStep_keeps_inv h u p
  | writeRow j v =>
    exact h.of_agree rfl rfl rfl id rfl rfl (Memory.wf_write _ _ h.playfield_wf)
      (Memory.inRange_write _ j.isLt h.playfield_inRange) h.tick_below
  | timer =>
    simp only [otherTurn, timerTurn]
    split
    · exact h.of_agree rfl rfl rfl id rfl rfl h.playfield_wf h.playfield_inRange (tickNext_lt _ h.tick_below)
    · exact h

/-! ### The row-select byte -/

/-- Bit i of the row-select byte of row j is 0 exactly for i = j (R107). -/
theorem bitOf_rowsel (j : Nat) (i : Fin 8) : bitOf (rowsel j) i = decide (i.val ≠ j) := by
  have h : (i.val < j ∨ i.val - j ≠ 0) ↔ i.val ≠ j := by omega
  simp [bitOf, rowsel, ← h]

/-- A row's image selects that row alone (R30, R112). -/
theorem selected_rowImage (j : Nat) (c : Byte) (y : Fin 8) : selected (rowImage j c) y = some (decide (y.val = j)) := by
  simp [selected, rowImage_views, bitOf_rowsel]

/-- A row's image lights that row's set bits (R30, R112). -/
theorem lit_rowImage (j : Nat) (c : Byte) (x y : Fin 8) :
    lit (rowImage j c) x y = some (decide (y.val = j) && bitOf c x) := by
  simp [lit, rowImage_views, bitOf_rowsel]

/-! ### The statements -/

/-- Settles O59: the caller's step, the running command's and every other agent's turn keep the invariant. -/
theorem stepKeepsInvariant : Obligations.StepKeepsInvariant := by
  intro s t h hstep
  have h' := afterTurn_keeps_inv h
  rcases step_next hstep with ⟨-, hm, rfl⟩ | ⟨-, -, i, hd, he⟩ | ⟨turn, rest, -, -, rfl⟩
  · exact callerStep_keeps_inv h' hm
  · exact exec_keeps_inv h' hd he
  · exact otherTurn_keeps_inv h' turn

/-- Settles O29: neither the micro-op nor the advance touches the environment. -/
theorem commandsKeepEnvironment : Obligations.CommandsKeepEnvironment := by
  intro i s t he
  obtain ⟨-, op, -, rfl⟩ := exec_next he
  simp [EnvironmentKept]

/-- Settles O37: the row ends with its image in Q, whose views are the selected row and its lit cells. -/
theorem renderRowShowsPlayfieldRow : Obligations.RenderRowShowsPlayfieldRow := by
  intro j s hj _ hs hw
  have ha := allAllowed_rowSeq hj hw
  obtain ⟨u, t, -, -, hrun, -, -, -, hq, -⟩ := execAll_ends (i := .renderRow j) (ops := rowSeq j) rfl hs ha (by simp)
  obtain ⟨-, -, himage, -⟩ := runOps_rowSeq hj ha
  rw [himage] at hq
  refine ⟨t, hrun, fun y => ?_, fun x y => ?_⟩
  · rw [hq, selected_rowImage]
  · rw [hq, lit_rowImage]

/-- Settles O41: in FAULT `mainTurn` stops, and of the other agents only a reset writes the mode or the cause. -/
theorem onlyResetLeavesFault : Obligations.OnlyResetLeavesFault := by
  refine ⟨fun s hm hn => ?_, fun s t hm hn hstep => ?_, fun s t hn hstep hc => ?_, fun s u p rest hs => ?_⟩
  · have hm' : (afterTurn s).mode = .fault := hm
    simp only [step_main hn, mainTurn, hm']
    rfl
  · rcases step_next hstep with ⟨-, hi, -⟩ | ⟨-, hb, -⟩ | ⟨turn, rest, hs, -, rfl⟩
    · simp [hm] at hi
    · simp [hm] at hb
    · exact (otherTurn_keeps (hn.ne_reset hs)).1.trans hm
  · rcases step_next hstep with ⟨-, -, rfl⟩ | ⟨-, -, i, -, he⟩ | ⟨turn, rest, hs, -, rfl⟩
    · exact callerStep_faultCause_of_ne_none (s := afterTurn s) hc
    · obtain ⟨-, op, -, rfl⟩ := exec_next he
      rw [settle_faultCause]
      exact perform_faultCause_of_ne_none op (s := afterTurn s) hc
    · exact (otherTurn_keeps (hn.ne_reset hs)).2.1
  · exact ⟨_, step_other hs (by simp), rfl, rfl⟩

/-- Settles O43: of the micro-ops only READ_ROW writes `colbyte`, and of the agents only the running command does. -/
theorem onlyReadRowWritesColbyte : Obligations.OnlyReadRowWritesColbyte := by
  intro s t hn hstep hne
  rcases step_next hstep with ⟨-, -, rfl⟩ | ⟨-, hb, i, hd, he⟩ | ⟨turn, rest, hs, -, rfl⟩
  · exact absurd (callerStep_keeps (afterTurn s)).1 hne
  · obtain ⟨-, op, ho, rfl⟩ := exec_next he
    rw [settle_colbyte] at hne ⊢
    rcases perform_colbyte op (afterTurn s) with hkeep | ⟨j, rfl, hcol⟩
    · exact absurd hkeep hne
    · exact ⟨i, j, hb, hd, ho, hcol⟩
  · obtain ⟨-, -, hcol, -⟩ := otherTurn_keeps (s := afterTurn s) (hn.ne_reset hs)
    exact absurd hcol hne

/-- Settles O44: a step of a command keeps the playfield, the caller writes it in a game update only, and no other
agent but game logic does. -/
theorem onlyGameLogicWritesPlayfield : Obligations.OnlyGameLogicWritesPlayfield := by
  intro s t hstep hne
  rcases step_next hstep with ⟨hn, hm, rfl⟩ | ⟨-, -, i, -, he⟩ | ⟨turn, rest, hs, -, rfl⟩
  · exact .inr ⟨hm, hn, callerStep_pf_ne (s := afterTurn s) hne⟩
  · obtain ⟨-, hpf, -⟩ := commandsKeepEnvironment i (afterTurn s) t he
    exact absurd hpf hne
  · by_cases hw : ∃ j v, turn = .writeRow j v
    · obtain ⟨j, v, rfl⟩ := hw
      exact .inl ⟨j, v, rest, hs⟩
    · exact absurd (otherTurn_pf (s := afterTurn s) fun j v he => hw ⟨j, v, he⟩) hne

/-- Settles O46: each agent's step appends to the trace and lets time pass, a reset apart. -/
theorem traceGrowsParametersStay : Obligations.TraceGrowsParametersStay := by
  intro s t hstep
  rcases step_next hstep with ⟨-, -, rfl⟩ | ⟨-, -, i, -, he⟩ | ⟨turn, rest, hs, -, rfl⟩
  · obtain ⟨-, -, -, -, htrace, hnow, hparams, htimed, -⟩ := callerStep_keeps (afterTurn s)
    exact ⟨fun _ => ⟨htrace, hnow⟩, hparams, htimed⟩
  · have htrace := trace_prefix_exec he
    obtain ⟨-, op, -, rfl⟩ := exec_next he
    refine ⟨fun _ => ⟨htrace, ?_⟩, by simp [afterTurn], by simp [afterTurn]⟩
    rw [settle_now]
    exact now_le_perform op (afterTurn s)
  · obtain ⟨hparams, htimed⟩ := otherTurn_params_timed turn (afterTurn s)
    refine ⟨fun hn => ?_, hparams, htimed⟩
    obtain ⟨-, -, -, htrace, hnow, -⟩ := otherTurn_keeps (s := afterTurn s) (hn.ne_reset hs)
    exact ⟨htrace ▸ List.prefix_rfl, hnow⟩

/-- Settles O54: `State.reset` read off field by field. -/
theorem resetStateValues : Obligations.ResetStateValues :=
  ⟨rfl, rfl, rfl, rfl, rfl, fun _ h => ⟨Vector.getElem_replicate h, Vector.getElem_replicate h⟩, rfl, rfl, rfl, rfl, rfl⟩

/-- Settles O58: the reset state is IDLE at `upc` 0 with no cause, an empty playfield and an empty program. -/
theorem resetStateMeetsInvariant : Obligations.ResetStateMeetsInvariant where
  playfield_wf := reset_pf_wf
  playfield_inRange := rfl
  tick_below := Nat.succ_pos _
  fault_recorded := by simp [State.reset]
  unreachable_causes := by simp [State.reset]
  idle_upc := fun _ => rfl
  busy_upc := by simp [State.reset]
  busy_colbyte := by simp [State.reset]
  caller_index := by
    rintro _ _ ⟨⟩
    exact le_rfl
  loop_frame := by simp [State.reset]

end Sys2Proof.Machine
end

section
/-! PROOFS. Memory: the frames of the pin and byte commands, game logic's write of the playfield, and what the
interrupt handlers and the caller can and cannot touch, assembled into the statements of 20_memory.md. -/

namespace Sys2Proof.Machine

/-! ### Frames of the commands without READ_ROW -/

theorem lineLevel_driveLine_of_ne (p : Pins) {l k : Line} (v : Bit) (h : k ≠ l) :
    lineLevel (driveLine p l v) k = lineLevel p k := by
  cases l <;> cases k <;> simp_all [lineLevel, driveLine]

/-- A PIN changes no other line's level; only one that can raise CLOCK moves the shift stages and only one that can
raise LATCH the output register (R41, R76, R79). -/
theorem perform_pin_frame (l : Line) (v : Bit) (s : State) :
    (perform (.pin l v) s).colbyte = s.colbyte ∧ (perform (.pin l v) s).faultCause = s.faultCause
      ∧ (∀ k, k ≠ l → lineLevel (perform (.pin l v) s).pins k = lineLevel s.pins k)
      ∧ (l ≠ .clock ∨ v = false → (perform (.pin l v) s).shiftS = s.shiftS)
      ∧ (l ≠ .latch ∨ v = false → (perform (.pin l v) s).outQ = s.outQ) := by
  refine ⟨performPin_colbyte l v s, performPin_faultCause l v s, fun k hk => ?_, fun h => ?_, fun h => ?_⟩
  · rw [perform, performPin_pins, lineLevel_driveLine_of_ne _ _ hk]
  · rcases h with h | h <;> simp [perform, pinWrite_shiftS, h]
  · rcases h with h | h <;> simp [perform, pinWrite_outQ, h]

/-- The micro-op a command has just performed is one of its list. -/
theorem exec_next_mem {i : Instr} {s t : State} (h : exec i s = .next t) :
    ∃ op ∈ expand i, t = settle (expand i).length (perform op s) := by
  obtain ⟨-, op, ho, rfl⟩ := exec_next h
  exact ⟨op, List.mem_of_getElem? ho, rfl⟩

/-- The frame of a command of one PIN (R41, R76). -/
theorem exec_pin_frame {i : Instr} {l : Line} {v : Bit} (hi : expand i = [.pin l v]) {s t : State}
    (h : exec i s = .next t) :
    EnvironmentKept s t ∧ t.colbyte = s.colbyte ∧ t.faultCause = s.faultCause
      ∧ (∀ k, k ≠ l → lineLevel t.pins k = lineLevel s.pins k)
      ∧ (l ≠ .clock ∨ v = false → t.shiftS = s.shiftS) ∧ (l ≠ .latch ∨ v = false → t.outQ = s.outQ) := by
  refine ⟨commandsKeepEnvironment i s t h, ?_⟩
  obtain ⟨op, hop, rfl⟩ := exec_next_mem h
  obtain rfl : op = .pin l v := by simpa [hi] using hop
  simpa using perform_pin_frame l v s

/-- Sending a fixed byte takes WAITs and PINs of DATA and CLOCK only (R93, R94). -/
theorem mem_shiftSeq_const {b : Byte} {op : MicroOp} (h : op ∈ shiftSeq (.const b)) :
    op = .wait ∨ ∃ l v, l ≠ .latch ∧ op = .pin l v := by
  simp only [shiftSeq, bitSeq, dataOp, List.mem_flatMap, List.mem_cons, List.not_mem_nil, or_false] at h
  obtain ⟨i, -, rfl | rfl | rfl | rfl | rfl | rfl | rfl | rfl⟩ := h <;> simp

/-- Settles O28: a command of one PIN drives its own line, a WAIT none, and no micro-op of SHIFT_BYTE drives LATCH. -/
theorem pinAndByteCommandFrames : Obligations.PinAndByteCommandFrames := by
  intro s t
  refine ⟨fun h => ?setData, fun h => ?clkLow, fun h => ?clkHigh, fun h => ?latchLow, fun h => ?latchHigh,
    fun h => ?waitD, fun b h => ?shiftByte⟩
  case setData =>
    obtain ⟨i, v, hi, h⟩ : ∃ i v, expand i = [.pin .data v] ∧ exec i s = .next t := by
      rcases h with ⟨v, h⟩ | h
      · exact ⟨_, v, rfl, h⟩
      · exact ⟨_, false, rfl, h⟩
    obtain ⟨henv, hcol, hcause, hpins, hS, hQ⟩ := exec_pin_frame hi h
    exact ⟨henv, hcol, hcause, hS (.inl nofun), hQ (.inl nofun), hpins .clock nofun, hpins .latch nofun⟩
  case clkLow =>
    obtain ⟨henv, hcol, hcause, hpins, hS, hQ⟩ := exec_pin_frame rfl h
    exact ⟨henv, hcol, hcause, hS (.inr rfl), hQ (.inl nofun), hpins .data nofun, hpins .latch nofun⟩
  case clkHigh =>
    obtain ⟨henv, hcol, hcause, hpins, -, hQ⟩ := exec_pin_frame rfl h
    exact ⟨henv, hcol, hcause, hQ (.inl nofun), hpins .data nofun, hpins .latch nofun⟩
  case latchLow =>
    obtain ⟨henv, hcol, hcause, hpins, hS, hQ⟩ := exec_pin_frame rfl h
    exact ⟨henv, hcol, hcause, hS (.inl nofun), hQ (.inr rfl), hpins .data nofun, hpins .clock nofun⟩
  case latchHigh =>
    obtain ⟨henv, hcol, hcause, hpins, hS, -⟩ := exec_pin_frame rfl h
    exact ⟨henv, hcol, hcause, hS (.inl nofun), hpins .data nofun, hpins .clock nofun⟩
  case waitD =>
    refine ⟨commandsKeepEnvironment _ s t h, ?_⟩
    obtain ⟨op, hop, rfl⟩ := exec_next_mem h
    obtain rfl : op = .wait := by simpa [expand] using hop
    simp [perform]
  case shiftByte =>
    refine ⟨commandsKeepEnvironment _ s t h, ?_⟩
    obtain ⟨op, hop, rfl⟩ := exec_next_mem h
    obtain rfl | ⟨l, v, hl, rfl⟩ := mem_shiftSeq_const hop
    · simp [perform]
    · obtain ⟨hcol, -, hpins, -, hQ⟩ := perform_pin_frame l v s
      rw [settle_colbyte, settle_outQ, settle_pins]
      exact ⟨hcol, hQ (.inl hl), hpins .latch hl.symm⟩

/-! ### Game logic's write -/

/-- Settles O45: the turn of game logic is one `Memory.write`, on a state that has lost this turn from its schedule. -/
theorem playfieldWriteReadsBack : Obligations.PlayfieldWriteReadsBack := by
  intro s j v rest hwf hs
  have hafter : afterTurn s = { s with sched := rest } := by simp [afterTurn, hs]
  have hstep := step_other hs (by simp)
  rw [hafter] at hstep
  exact ⟨_, hstep, Memory.read_write_same _ v hwf, fun k hk => Memory.read_write_other v hk hwf,
    Memory.wf_write _ v hwf, Memory.inRange_write v j.isLt, rfl⟩

/-! ### The handlers -/

/-- The state without what the handlers, time passing and the schedule account for: those fields at a fixed value. -/
def withoutHandlers (s : State) : State :=
  { s with
    needsRepaint := false, needsGameUpdate := false, tickCount := 0, now := 0, sched := [], tickDue := 0 }

@[simp] theorem withoutHandlers_mode (s : State) : (withoutHandlers s).mode = s.mode := rfl
@[simp] theorem withoutHandlers_cmd (s : State) : (withoutHandlers s).cmd = s.cmd := rfl
@[simp] theorem withoutHandlers_upc (s : State) : (withoutHandlers s).upc = s.upc := rfl
@[simp] theorem withoutHandlers_colbyte (s : State) : (withoutHandlers s).colbyte = s.colbyte := rfl
@[simp] theorem withoutHandlers_timed (s : State) : (withoutHandlers s).timed = s.timed := rfl
@[simp] theorem withoutHandlers_caller (s : State) : (withoutHandlers s).caller = s.caller := rfl

/-- A handler's turn changes only what `withoutHandlers` leaves out (R48, R134, R135). -/
theorem withoutHandlers_otherTurn {h : Turn} (hh : h.isHandler = true) (s : State) :
    withoutHandlers (otherTurn h s) = withoutHandlers s := by
  cases h with
  | timer => simp only [otherTurn, timerTurn]; split <;> rfl
  | serial => rfl
  | elapse d => rfl
  | main => cases hh
  | writeRow j v => cases hh
  | reset u p => cases hh

/-- No agent's turn changes the turns to come. -/
theorem otherTurn_sched (t : Turn) (s : State) : (otherTurn t s).sched = s.sched := by
  cases t with
  | timer => simp only [otherTurn, timerTurn]; split <;> rfl
  | main => rfl
  | serial => rfl
  | elapse d => rfl
  | writeRow j v => rfl
  | reset u p => rfl

theorem Turn.ne_main_of_isHandler {h : Turn} (hh : h.isHandler = true) : h ≠ .main := by
  rintro rfl
  cases hh

/-- Settles O49: what the statement names is read off `withoutHandlers`, which a handler's turn keeps. -/
theorem handlersTouchNoBlockState : Obligations.HandlersTouchNoBlockState := by
  intro s h rest hh hs
  have hkeep : withoutHandlers (otherTurn h (afterTurn s)) = withoutHandlers s := withoutHandlers_otherTurn hh _
  refine ⟨_, step_other hs (Turn.ne_main_of_isHandler hh), (congrArg blockView hkeep :), (congrArg State.trace hkeep :),
    ?_, (congrArg State.params hkeep :), (congrArg State.timed hkeep :), (congrArg State.draws hkeep :)⟩
  simp [otherTurn_sched, afterTurn, hs]

/-! ### A caller program's run beside the handlers -/

/-- In the untimed semantics an event has no stamp (R35). -/
theorem emit_withoutHandlers {s : State} (ht : s.timed = false) (e : Event) :
    emit e (withoutHandlers s) = withoutHandlers (emit e s) := by
  simp [emit, withoutHandlers, stampNow, ht]

theorem raise_withoutHandlers {s : State} (ht : s.timed = false) (c : FaultCause) (w : Option Word) :
    raise c w (withoutHandlers s) = withoutHandlers (raise c w s) :=
  emit_withoutHandlers (s := { s with faultCause := if s.faultCause = .none then c else s.faultCause, mode := .fault })
    ht _

/-- In the untimed semantics no duration is spent (R35). -/
theorem spend_withoutHandlers {s : State} (ht : s.timed = false) :
    spend (withoutHandlers s) = withoutHandlers (spend s) := by
  rw [spend_untimed ht, spend_untimed (s := withoutHandlers s) ht]

theorem edge_withoutHandlers {s : State} (ht : s.timed = false) (l : Line) :
    edge l (withoutHandlers s) = withoutHandlers (edge l s) := by
  cases l with
  | data => rfl
  | clock => exact emit_withoutHandlers (s := { s with shiftS := shiftIn (some s.pins.data) s.shiftS }) ht _
  | latch => exact emit_withoutHandlers (s := { s with outQ := s.shiftS }) ht _

theorem performPin_withoutHandlers {s : State} (ht : s.timed = false) (l : Line) (v : Bit) :
    performPin l v (withoutHandlers s) = withoutHandlers (performPin l v s) := by
  have hwritten := emit_withoutHandlers (s := { s with pins := driveLine s.pins l v }) ht
    (.pin l (lineLevel s.pins l) v)
  have hpin : pinWrite l v (withoutHandlers s) = withoutHandlers (pinWrite l v s) := by
    have hrises : rises (withoutHandlers s) l v = rises s l v := rfl
    simp only [pinWrite, hrises]
    split
    · exact (congrArg (edge l) hwritten).trans (edge_withoutHandlers (by simpa using ht) l)
    · exact hwritten
  exact (congrArg spend hpin).trans (spend_withoutHandlers (by simpa using ht))

/-- In the untimed semantics no micro-op reads a flag, the tick counter, the time or the schedule (R48). -/
theorem perform_withoutHandlers {s : State} (ht : s.timed = false) (op : MicroOp) :
    perform op (withoutHandlers s) = withoutHandlers (perform op s) := by
  cases op with
  | pin l v => exact performPin_withoutHandlers ht l v
  | wait =>
    have hlong : waitTooShort s = false := by simp [waitTooShort, ht]
    have hlong' : waitTooShort (withoutHandlers s) = false := hlong
    simp [perform, performWait, hlong, hlong', spend_withoutHandlers ht]
  | readRow j =>
    simp only [perform, performReadRow]
    split
    · exact raise_withoutHandlers ht _ _
    · have hread := emit_withoutHandlers (s := { s with colbyte := some (Memory.read s.pf j) }) ht
        (.read j (Memory.read s.pf j))
      exact (congrArg spend hread).trans (spend_withoutHandlers ht)
  | dataCol i =>
    simp only [perform, performDataCol, withoutHandlers_colbyte]
    cases s.colbyte with
    | none => exact raise_withoutHandlers ht _ _
    | some b => exact performPin_withoutHandlers ht _ _

theorem settle_withoutHandlers {s : State} (ht : s.timed = false) (n : Nat) :
    settle n (withoutHandlers s) = withoutHandlers (settle n s) := by
  by_cases hb : s.mode = .busy
  · rw [settle_busy hb, settle_busy (s := withoutHandlers s) hb]
    by_cases hlast : s.upc + 1 = n
    · rw [advance_last hlast, advance_last (s := withoutHandlers s) hlast]
      exact emit_withoutHandlers (s := { s with mode := .idle, upc := 0 }) ht _
    · rw [advance_more hlast, advance_more (s := withoutHandlers s) hlast]
      rfl
  · rw [settle_not_busy hb, settle_not_busy (s := withoutHandlers s) hb]

theorem issue_withoutHandlers {s : State} (ht : s.timed = false) (w : Word) :
    issue w (withoutHandlers s) = withoutHandlers (issue w s) := by
  cases hd : decode w with
  | ok i => rw [issue_ok hd, issue_ok hd]; rfl
  | error g => rw [issue_error hd, issue_error hd, raise_withoutHandlers ht]

theorem exec_withoutHandlers {s : State} (ht : s.timed = false) (i : Instr) :
    exec i (withoutHandlers s) = viewOutcome withoutHandlers (exec i s) := by
  simp only [exec_eq_microStep, microStep, withoutHandlers_mode, withoutHandlers_upc]
  cases s.mode with
  | busy =>
    cases (expand i)[s.upc]? with
    | some op =>
      have ht' : (perform op s).timed = false := by simpa using ht
      simp [viewOutcome, perform_withoutHandlers ht, settle_withoutHandlers ht']
    | none => rfl
  | idle => rfl
  | fault => rfl

/-- A caller program runs in the untimed semantics. -/
def RunsProgramUntimed (s : State) : Prop := s.timed = false ∧ ∃ words hpc, s.caller = .program words hpc

theorem callerStep_withoutHandlers {s : State} (h : RunsProgramUntimed s) :
    callerStep (withoutHandlers s) = withoutHandlers (callerStep s) := by
  obtain ⟨ht, words, hpc, hc⟩ := h
  simp only [callerStep, withoutHandlers_caller, hc, programStep]
  cases words[hpc]? with
  | none => rfl
  | some w => exact issue_withoutHandlers (s := { s with caller := .program words (hpc + 1) }) ht w

theorem mainTurn_withoutHandlers {s : State} (h : RunsProgramUntimed s) :
    mainTurn (withoutHandlers s) = viewOutcome withoutHandlers (mainTurn s) := by
  simp only [mainTurn, withoutHandlers_mode, withoutHandlers_cmd]
  cases s.mode with
  | idle => simp [viewOutcome, callerStep_withoutHandlers h]
  | busy =>
    cases decode s.cmd with
    | ok i => exact exec_withoutHandlers h.1 i
    | error g => rfl
  | fault => rfl

/-- A step of the main context of a caller program does the same whatever the handlers have done (R48, R166). -/
theorem step_withoutHandlers {s : State} (h : RunsProgramUntimed s) (hn : MainNext s) :
    step (withoutHandlers s) = viewOutcome withoutHandlers (step s) := by
  rw [step_main hn, step_main (s := withoutHandlers s) (.inl rfl)]
  exact mainTurn_withoutHandlers (s := afterTurn s) h

/-- An issue touches neither the caller nor the schedule nor a flag (R55, R130). -/
theorem issue_keeps (w : Word) (s : State) :
    (issue w s).caller = s.caller ∧ (issue w s).sched = s.sched ∧ (issue w s).needsRepaint = s.needsRepaint
      ∧ (issue w s).needsGameUpdate = s.needsGameUpdate := by
  cases hd : decode w with
  | ok i => rw [issue_ok hd]; exact ⟨rfl, rfl, rfl, rfl⟩
  | error g => rw [issue_error hd]; exact ⟨rfl, rfl, rfl, rfl⟩

/-- The caller's step stays in its program (R148). -/
theorem callerStep_program {s : State} (h : ∃ words hpc, s.caller = .program words hpc) :
    ∃ words hpc, (callerStep s).caller = .program words hpc := by
  obtain ⟨words, hpc, hc⟩ := h
  simp only [callerStep, hc, programStep]
  cases words[hpc]? with
  | none => exact ⟨words, hpc, hc⟩
  | some w => exact ⟨words, hpc + 1, (issue_keeps _ _).1⟩

/-- A caller program goes on running, whoever's turn it is but a reset's. -/
theorem RunsProgramUntimed.next {s t : State} (h : RunsProgramUntimed s) (hn : NoResetNext s)
    (hstep : step s = .next t) : RunsProgramUntimed t := by
  obtain ⟨-, -, htimed⟩ := traceGrowsParametersStay s t hstep
  refine ⟨htimed.trans h.1, ?_⟩
  rcases step_next hstep with ⟨-, -, rfl⟩ | ⟨-, -, i, -, he⟩ | ⟨turn, rest, hs, -, rfl⟩
  · exact callerStep_program (s := afterTurn s) h.2
  · obtain ⟨-, -, -, -, -, -, hcaller, -⟩ := commandsKeepEnvironment i (afterTurn s) t he
    rw [hcaller]
    exact h.2
  · obtain ⟨-, -, -, -, -, -, -, -, -, hcaller, -⟩ := otherTurn_keeps (s := afterTurn s) (hn.ne_reset hs)
    rw [hcaller]
    exact h.2

theorem callerStep_sched (s : State) : (callerStep s).sched = s.sched := by
  generalize ht : callerStep s = t
  cases ht ▸ callerStep_effect s with
  | issuesNext hc hw => exact (issue_keeps _ _).2.1
  | programOver hc hw => rfl
  | issuesFrame hc hflag => exact (issue_keeps _ _).2.1
  | movesOn hc hpf => rfl

/-- A step takes its turn off the schedule and changes no other. -/
theorem step_sched {s t : State} (hstep : step s = .next t) : t.sched = s.sched.tail := by
  rcases step_next hstep with ⟨-, -, rfl⟩ | ⟨-, -, i, -, he⟩ | ⟨turn, rest, -, -, rfl⟩
  · exact callerStep_sched _
  · obtain ⟨-, -, -, -, -, -, -, hsched, -⟩ := commandsKeepEnvironment i (afterTurn s) t he
    exact hsched
  · exact otherTurn_sched _ _

/-- A run that begins with the main context's turn is taken beside the handlers if the rest of it is. -/
theorem runSteps_succ_withoutHandlers {n m : Nat} {s : State} (h : RunsProgramUntimed s) (hn : MainNext s)
    (hrest : ∀ t, step s = .next t → viewOutcome withoutHandlers (runSteps n t) = runSteps m (withoutHandlers t)) :
    viewOutcome withoutHandlers (runSteps (n + 1) s) = runSteps (m + 1) (withoutHandlers s) := by
  rw [runSteps, runSteps, step_withoutHandlers h hn]
  cases hs : step s with
  | next t => exact hrest t hs
  | fault r => rfl
  | refused r => rfl

/-- A run along a schedule of main turns and handlers, seen without what the handlers write, is the run of its main
turns alone. -/
theorem runSteps_interleaved {turns : List Turn} {s : State} (h : RunsProgramUntimed s) (hs : s.sched = turns)
    (hturns : ∀ t ∈ turns, t = .main ∨ t.isHandler = true) :
    viewOutcome withoutHandlers (runSteps turns.length s) = runSteps (turns.count .main) (withoutHandlers s) := by
  induction turns generalizing s with
  | nil => rfl
  | cons turn turns ih =>
    obtain ⟨hturn, hturns⟩ := List.forall_mem_cons.1 hturns
    have hreset : NoResetNext s := by
      intro u p rest hr
      rw [hs] at hr
      obtain ⟨rfl, -⟩ := List.cons.inj hr
      simp [Turn.isHandler] at hturn
    have next {t : State} (ht : step s = .next t) :
        viewOutcome withoutHandlers (runSteps turns.length t) = runSteps (turns.count .main) (withoutHandlers t) :=
      ih (h.next hreset ht) (by rw [step_sched ht, hs, List.tail_cons]) hturns
    rcases hturn with rfl | hh
    · rw [List.count_cons_self]
      exact runSteps_succ_withoutHandlers h (.inr ⟨turns, hs⟩) fun t ht => next ht
    · have hne : turn ≠ .main := Turn.ne_main_of_isHandler hh
      have hstep := step_other hs hne
      have hkeep : withoutHandlers (otherTurn turn (afterTurn s)) = withoutHandlers s := withoutHandlers_otherTurn hh _
      rw [List.count_cons_of_ne hne, List.length_cons, runSteps, hstep, ← hkeep]
      exact next hstep

/-- A run with no turn left in the schedule is the main context's alone. -/
theorem runSteps_unscheduled (n : Nat) {s : State} (h : RunsProgramUntimed s) (hs : s.sched = []) :
    viewOutcome withoutHandlers (runSteps n s) = runSteps n (withoutHandlers s) := by
  induction n generalizing s with
  | zero => rfl
  | succ n ih =>
    refine runSteps_succ_withoutHandlers h (.inl hs) fun t ht => ih (h.next (by simp [NoResetNext, hs]) ht) ?_
    rw [step_sched ht, hs, List.tail_nil]

theorem viewOutcome_blockView_withoutHandlers (o : Host.Outcome State Fault Refusal) :
    viewOutcome blockView (viewOutcome withoutHandlers o) = viewOutcome blockView o := by cases o <;> rfl

/-- Settles O50: both runs, seen without what the handlers write, are the run of the main turns alone. -/
theorem interleavingChangesNoValue : Obligations.InterleavingChangesNoValue := by
  intro turns s ht hc hturns
  calc viewOutcome blockView (runSteps turns.length { s with sched := turns })
    _ = viewOutcome blockView (viewOutcome withoutHandlers (runSteps turns.length { s with sched := turns })) :=
      (viewOutcome_blockView_withoutHandlers _).symm
    _ = viewOutcome blockView (runSteps (turns.count .main) (withoutHandlers s)) :=
      congrArg _ (runSteps_interleaved (s := { s with sched := turns }) ⟨ht, hc⟩ rfl hturns)
    _ = viewOutcome blockView (viewOutcome withoutHandlers (runSteps (turns.count .main) { s with sched := [] })) :=
      congrArg _ (runSteps_unscheduled (s := { s with sched := [] }) _ ⟨ht, hc⟩ rfl).symm
    _ = viewOutcome blockView (runSteps (turns.count .main) { s with sched := [] }) :=
      viewOutcome_blockView_withoutHandlers _

/-! ### The scheduler's flags -/

/-- What a step does to one flag: it stays, the timer handler sets it, or the main loop clears it in the phase after
its service (R50, R137). -/
def FlagStep (flag : State → Bit) (serviced : List Service → LoopPhase) (s t : State) : Prop :=
  flag t = flag s
    ∨ (flag t = true ∧ ∃ rest, s.sched = .timer :: rest)
    ∨ (flag t = false ∧ MainNext s ∧ s.mode = .idle ∧ ∃ rest, s.caller = .mainLoop (serviced rest))

theorem FlagStep.set {flag : State → Bit} {serviced : List Service → LoopPhase} {s t : State}
    (h : FlagStep flag serviced s t) (ht : flag t = true) (hs : flag s = false) : ∃ rest, s.sched = .timer :: rest := by
  rcases h with h | ⟨-, htimer⟩ | ⟨h, -⟩
  · simp [ht, hs] at h
  · exact htimer
  · simp [ht] at h

theorem FlagStep.cleared {flag : State → Bit} {serviced : List Service → LoopPhase} {s t : State}
    (h : FlagStep flag serviced s t) (ht : flag t = false) (hs : flag s = true) :
    MainNext s ∧ s.mode = .idle ∧ ∃ rest, s.caller = .mainLoop (serviced rest) := by
  rcases h with h | ⟨h, -⟩ | ⟨-, hloop⟩
  · simp [ht, hs] at h
  · simp [ht] at h
  · exact hloop

/-- The caller clears each flag in the phase after its service and changes no flag otherwise (R137). -/
theorem callerStep_flags (s : State) :
    ((callerStep s).needsRepaint = s.needsRepaint
        ∨ ((callerStep s).needsRepaint = false ∧ ∃ rest, s.caller = .mainLoop (.framing rest)))
      ∧ ((callerStep s).needsGameUpdate = s.needsGameUpdate
        ∨ ((callerStep s).needsGameUpdate = false ∧ ∃ rest, s.caller = .mainLoop (.updated rest))) := by
  unfold callerStep
  split
  · next words hpc hc =>
    unfold programStep
    split
    · next w hw =>
      obtain ⟨-, -, hr, hg⟩ := issue_keeps w { s with caller := .program words (hpc + 1) }
      exact ⟨.inl hr, .inl hg⟩
    · exact ⟨.inl rfl, .inl rfl⟩
  · next p hc =>
    cases p with
    | polling services =>
      match services with
      | [] => exact ⟨.inl rfl, .inl rfl⟩
      | .gameUpdate :: rest => simp only [mainLoopStep]; split <;> exact ⟨.inl rfl, .inl rfl⟩
      | .repaint :: rest =>
        simp only [mainLoopStep]
        split
        · obtain ⟨-, -, hr, hg⟩ := issue_keeps (encode .renderFrame) (atPhase (.framing rest) s)
          exact ⟨.inl hr, .inl hg⟩
        · exact ⟨.inl rfl, .inl rfl⟩
    | updating rest => simp only [mainLoopStep]; split <;> exact ⟨.inl rfl, .inl rfl⟩
    | gameOver rest => exact ⟨.inl rfl, .inl rfl⟩
    | updated rest => exact ⟨.inl rfl, .inr ⟨rfl, rest, hc⟩⟩
    | framing rest => exact ⟨.inr ⟨rfl, rest, hc⟩, .inl rfl⟩

/-- A tick requests a game update or leaves the request as it was (R136). -/
theorem timerHandler_keeps_or_requests (s : State) :
    (timerHandler s).needsGameUpdate = s.needsGameUpdate ∨ (timerHandler s).needsGameUpdate = true := by
  cases h : gameTick s <;> simp [timerHandler, h]

/-- Of the other agents but reset only the timer handler writes a flag, and it sets both or leaves them (R136). -/
theorem otherTurn_flags {turn : Turn} (hreset : ∀ u p, turn ≠ .reset u p) (s : State) :
    ((otherTurn turn s).needsRepaint = s.needsRepaint ∨ ((otherTurn turn s).needsRepaint = true ∧ turn = .timer))
      ∧ ((otherTurn turn s).needsGameUpdate = s.needsGameUpdate
        ∨ ((otherTurn turn s).needsGameUpdate = true ∧ turn = .timer)) := by
  cases turn with
  | reset u p => exact absurd rfl (hreset u p)
  | timer =>
    simp only [otherTurn, timerTurn]
    split
    · exact ⟨.inr ⟨rfl, trivial⟩, (timerHandler_keeps_or_requests _).imp_right (⟨·, trivial⟩)⟩
    · exact ⟨.inl rfl, .inl rfl⟩
  | main => exact ⟨.inl rfl, .inl rfl⟩
  | serial => exact ⟨.inl rfl, .inl rfl⟩
  | elapse d => exact ⟨.inl rfl, .inl rfl⟩
  | writeRow j v => exact ⟨.inl rfl, .inl rfl⟩

/-- Each flag over a step that is no reset. -/
theorem step_flags {s t : State} (hn : NoResetNext s) (hstep : step s = .next t) :
    FlagStep State.needsRepaint .framing s t ∧ FlagStep State.needsGameUpdate .updated s t := by
  rcases step_next hstep with ⟨hmain, hidle, rfl⟩ | ⟨-, -, i, -, he⟩ | ⟨turn, rest, hs, -, rfl⟩
  · obtain ⟨hr, hg⟩ := callerStep_flags (afterTurn s)
    exact ⟨hr.imp_right fun ⟨hc, hp⟩ => .inr ⟨hc, hmain, hidle, hp⟩,
      hg.imp_right fun ⟨hc, hp⟩ => .inr ⟨hc, hmain, hidle, hp⟩⟩
  · obtain ⟨-, -, -, hr, hg, -⟩ := commandsKeepEnvironment i (afterTurn s) t he
    exact ⟨.inl hr, .inl hg⟩
  · obtain ⟨hr, hg⟩ := otherTurn_flags (hn.ne_reset hs) (afterTurn s)
    exact ⟨hr.imp_right fun ⟨ht, he⟩ => .inl ⟨ht, rest, he ▸ hs⟩,
      hg.imp_right fun ⟨ht, he⟩ => .inl ⟨ht, rest, he ▸ hs⟩⟩

/-- Settles O53: the four clauses are the two ways in which each flag can change over a step. -/
theorem flagsHaveOneSetterOneClearer : Obligations.FlagsHaveOneSetterOneClearer := by
  intro s t hn hstep
  obtain ⟨hr, hg⟩ := step_flags hn hstep
  exact ⟨hr.set, hg.set, hr.cleared, hg.cleared⟩

end Sys2Proof.Machine
end

section
/-! PROOFS. Encoding: the opcode map read as intervals of numbers, the decoder and the encoder against it, the
assembler, the micro-op lists, the micro-op step and the issue of a command, assembled into the statements of
30_encoding.md. -/

namespace Sys2Proof

/-! ### Fields and formats as numbers -/

theorem opField_toNat (w : Word) : (opField w).toNat = w.toNat / 4096 := by
  have := w.isLt
  simp only [opField, BitVec.extractLsb'_toNat, Nat.shiftRight_eq_div_pow]
  omega

theorem lineField_toNat (w : Word) : (lineField w).toNat = w.toNat / 1024 % 4 := by
  simp [lineField, Nat.shiftRight_eq_div_pow]

theorem byteField_toNat (w : Word) : (byteField w).toNat = w.toNat % 256 := by simp [byteField]

theorem rowField_eq (w : Word) : rowField w = w.toNat % 8 := by simp [rowField]

theorem levelField_toNat (w : Word) : (levelField w).toNat = w.toNat % 2 := by
  rw [levelField, BitVec.getLsbD, Nat.toNat_testBit, pow_zero, Nat.div_one]

theorem formatP_toNat (l : Line) (v : Bit) :
    (formatP l v).toNat = 0x1000 + 0x400 * (lineCode l).toNat + v.toNat := by
  cases l <;> cases v <;> rfl

theorem formatB_toNat (b : Byte) : (formatB b).toNat = 0x3000 + b.toNat := by
  have h : (formatB b).toNat = 0x30 <<< 8 ||| b.toNat := BitVec.toNat_append (0x3#4 ++ 0#4) b
  rw [h, ← Nat.shiftLeft_add_eq_or_of_lt b.isLt, Nat.shiftLeft_eq]

theorem formatJ_toNat (j : Nat) : (formatJ j).toNat = 0x4000 + j % 8 := by
  have h : (formatJ j).toNat = 0x800 <<< 3 ||| (BitVec.ofNat 3 j).toNat :=
    BitVec.toNat_append (0x4#4 ++ 0#9) (BitVec.ofNat 3 j)
  rw [h, ← Nat.shiftLeft_add_eq_or_of_lt (BitVec.ofNat 3 j).isLt, Nat.shiftLeft_eq, BitVec.toNat_ofNat]

/-! ### The rows of the opcode map -/

/-- The largest operand of a row, its free bits all 1. A row's words run from `pattern` to `pattern + maxOperand`. -/
def OpRow.maxOperand (r : OpRow) : Nat := (~~~r.mask).toNat

/-- A mask of the high bits from bit k up matches an interval of 2^k words. -/
theorem and_highMask_eq_iff (w p : Word) {k : Nat} (hp : p.toNat % 2 ^ k = 0) :
    w &&& BitVec.allOnes 16 <<< k = p ↔ p.toNat ≤ w.toNat ∧ w.toNat < p.toNat + 2 ^ k := by
  have hw : (w >>> k <<< k).toNat = 2 ^ k * (w.toNat / 2 ^ k) := by
    have hlt : w.toNat / 2 ^ k * 2 ^ k < 2 ^ 16 := (Nat.div_mul_le_self _ _).trans_lt w.isLt
    rw [BitVec.toNat_shiftLeft, BitVec.toNat_ushiftRight, Nat.shiftRight_eq_div_pow, Nat.shiftLeft_eq,
      Nat.mod_eq_of_lt hlt, Nat.mul_comm]
  have hdiv := Nat.div_add_mod w.toNat (2 ^ k)
  have hmod := Nat.mod_lt w.toNat (Nat.two_pow_pos k)
  obtain ⟨q, hq⟩ := Nat.dvd_of_mod_eq_zero hp
  rw [← BitVec.shiftLeft_ushiftRight, ← BitVec.toNat_inj, hw, hq]
  constructor
  · omega
  · rintro ⟨hle, hlt⟩
    have : w.toNat / 2 ^ k = q := Nat.div_eq_of_lt_le (by rwa [Nat.mul_comm]) (by rwa [Nat.mul_comm, Nat.mul_succ])
    rw [this]

/-- In every row the operand stands in the low bits, below the fixed ones (R57 to R62). -/
theorem opcodeMap_highMask : ∀ r ∈ opcodeMap, ∃ k < 9,
    r.mask = BitVec.allOnes 16 <<< k ∧ r.pattern.toNat % 2 ^ k = 0 ∧ r.maxOperand + 1 = 2 ^ k := by decide

/-- The words of a row are an interval. -/
theorem OpRow.accepts_iff {r : OpRow} (hr : r ∈ opcodeMap) (w : Word) :
    r.accepts w = true ↔ r.pattern.toNat ≤ w.toNat ∧ w.toNat ≤ r.pattern.toNat + r.maxOperand := by
  obtain ⟨k, -, hmask, hpat, hmax⟩ := opcodeMap_highMask r hr
  rw [OpRow.accepts, decide_eq_true_iff, hmask, and_highMask_eq_iff w r.pattern hpat]
  omega

/-- Two rows fix some bit at different values, so that no word has both patterns. -/
def OpRow.Differ (r t : OpRow) : Prop := r.pattern &&& t.mask ≠ t.pattern &&& r.mask

theorem OpRow.not_accepts_of_differ {r t : OpRow} {w : Word} (h : r.Differ t) (hr : r.accepts w = true) :
    t.accepts w = false := by
  rw [OpRow.accepts, decide_eq_true_iff] at hr
  rw [OpRow.accepts, decide_eq_false_iff_not]
  intro ht
  apply h
  rw [← hr, ← ht, BitVec.and_assoc, BitVec.and_assoc, BitVec.and_comm r.mask]

theorem opcodeMap_pairwise_differ : opcodeMap.Pairwise OpRow.Differ := by
  unfold OpRow.Differ
  decide

/-- At most one row accepts a word (R62). -/
theorem opcodeMap_accepts_unique {r t : OpRow} {w : Word} (hr : r ∈ opcodeMap) (ht : t ∈ opcodeMap)
    (hrw : r.accepts w = true) (htw : t.accepts w = true) : r = t := by
  have : Std.Symm OpRow.Differ := ⟨fun _ _ h => h.symm⟩
  by_contra hne
  have hfalse := OpRow.not_accepts_of_differ (opcodeMap_pairwise_differ.forall hr ht hne) hrw
  simp [htw] at hfalse

/-! ### The decoder -/

/-- A word decodes to the command that the row accepting it builds (R65). -/
theorem decode_ok_iff {w : Word} {i : Instr} :
    decode w = .ok i ↔ ∃ r ∈ opcodeMap, r.accepts w = true ∧ r.build w = i := by
  unfold decode
  split
  · next r hf =>
    have hr := List.mem_of_find?_eq_some hf
    have hw : r.accepts w = true := List.find?_some (p := (OpRow.accepts · w)) hf
    constructor
    · rintro ⟨⟩
      exact ⟨r, hr, hw, rfl⟩
    · rintro ⟨t, ht, htw, rfl⟩
      rw [opcodeMap_accepts_unique hr ht hw htw]
  · next hf =>
    simp only [reduceCtorEq, false_iff]
    rintro ⟨t, ht, htw, -⟩
    exact List.find?_eq_none.1 hf t ht htw

/-- A word is INVALID when no row accepts it (R65). -/
theorem decode_error_iff {w : Word} : (∃ g, decode w = .error g) ↔ ∀ r ∈ opcodeMap, r.accepts w = false := by
  unfold decode
  split
  · next r hf =>
    simp only [reduceCtorEq, exists_false, false_iff]
    intro h
    exact absurd (List.find?_some (p := (OpRow.accepts · w)) hf) (by simp [h r (List.mem_of_find?_eq_some hf)])
  · next hf => simpa using hf

/-- A row without operand accepts its pattern alone. -/
theorem OpRow.eq_pattern {r : OpRow} {w : Word} (hr : r ∈ opcodeMap) (hw : r.accepts w = true)
    (hmax : r.maxOperand = 0) : w = r.pattern := by
  obtain ⟨hlo, hhi⟩ := (OpRow.accepts_iff hr w).1 hw
  rw [hmax] at hhi
  exact BitVec.eq_of_toNat_eq (Nat.le_antisymm hhi hlo)

/-- A row builds a command whose word is the word it was built from: no bit is ignored (R64). -/
theorem OpRow.encode_build {r : OpRow} {w : Word} (hr : r ∈ opcodeMap) (hw : r.accepts w = true) :
    encode (r.build w) = w := by
  have hbounds := (OpRow.accepts_iff hr w).1 hw
  have hsingle : r.maxOperand = 0 → w = r.pattern := OpRow.eq_pattern hr hw
  simp only [opcodeMap, List.mem_cons, List.not_mem_nil, or_false] at hr
  rcases hr with rfl | rfl | rfl | rfl | rfl | rfl | rfl | rfl | rfl
  · have hw : 0x1000 ≤ w.toNat ∧ w.toNat ≤ 0x1001 := hbounds
    apply BitVec.eq_of_toNat_eq
    simp only [encode, formatP_toNat, lineCode, BitVec.reduceToNat, levelField_toNat]
    omega
  · exact (hsingle rfl).symm
  · exact (hsingle rfl).symm
  · exact (hsingle rfl).symm
  · exact (hsingle rfl).symm
  · exact (hsingle rfl).symm
  · have hw : 0x3000 ≤ w.toNat ∧ w.toNat ≤ 0x30FF := hbounds
    apply BitVec.eq_of_toNat_eq
    simp only [encode, formatB_toNat, byteField_toNat]
    omega
  · have hw : 0x4000 ≤ w.toNat ∧ w.toNat ≤ 0x4007 := hbounds
    apply BitVec.eq_of_toNat_eq
    simp only [encode, formatJ_toNat, rowField_eq]
    omega
  · exact (hsingle rfl).symm

/-- A row builds well-formed commands only, and never the pseudo-instruction (R61, R65). -/
theorem OpRow.build_wellFormed {r : OpRow} (hr : r ∈ opcodeMap) (w : Word) :
    (r.build w).wellFormed = true ∧ r.build w ≠ .clearData := by
  have hrow : rowField w ≤ 7 := by
    rw [rowField_eq]
    omega
  simp only [opcodeMap, List.mem_cons, List.not_mem_nil, or_false] at hr
  rcases hr with rfl | rfl | rfl | rfl | rfl | rfl | rfl | rfl | rfl <;> simp [Instr.wellFormed, hrow]

theorem byteField_formatB (b : Byte) : byteField (formatB b) = b := by
  apply BitVec.eq_of_toNat_eq
  rw [byteField_toNat, formatB_toNat]
  omega

theorem rowField_formatJ {j : Nat} (hj : j ≤ 7) : rowField (formatJ j) = j := by
  rw [rowField_eq, formatJ_toNat]
  omega

/-- A word in a row's interval decodes to the command that the row builds. -/
theorem OpRow.decode_of_bounds {r : OpRow} {w : Word} (hr : r ∈ opcodeMap) (hlo : r.pattern.toNat ≤ w.toNat)
    (hhi : w.toNat ≤ r.pattern.toNat + r.maxOperand) : decode w = .ok (r.build w) :=
  decode_ok_iff.2 ⟨r, hr, (OpRow.accepts_iff hr w).2 ⟨hlo, hhi⟩, rfl⟩

/-- The operand of SHIFT_BYTE comes back from its word (R59, R61). -/
theorem decode_formatB (b : Byte) : decode (formatB b) = .ok (.shiftByte b) := by
  have hr : ⟨0x3000, 0xFF00, fun w => .shiftByte (byteField w)⟩ ∈ opcodeMap := by simp [opcodeMap]
  have hmax : (formatB b).toNat ≤ 0x3000 + 0xFF := formatB_toNat b ▸ Nat.add_le_add_left (Nat.le_of_lt_succ b.isLt) _
  simpa only [byteField_formatB] using OpRow.decode_of_bounds hr (formatB_toNat b ▸ Nat.le_add_right _ _) hmax

/-- The operand of RENDER_ROW, where it is in range, comes back from its word (R60, R61). -/
theorem decode_formatJ {j : Nat} (hj : j ≤ 7) : decode (formatJ j) = .ok (.renderRow j) := by
  have hr : ⟨0x4000, 0xFFF8, fun w => .renderRow (rowField w)⟩ ∈ opcodeMap := by simp [opcodeMap]
  have hmax : (formatJ j).toNat ≤ 0x4000 + 7 := by
    rw [formatJ_toNat]
    omega
  simpa only [rowField_formatJ hj] using OpRow.decode_of_bounds hr (formatJ_toNat j ▸ Nat.le_add_right _ _) hmax

theorem Instr.core_of_ne_clearData {i : Instr} (h : i ≠ .clearData) : i.core = i := by
  cases i with
  | clearData => exact absurd rfl h
  | _ => rfl

/-- The round trip from commands (R57 to R61, R65, R68). -/
theorem decode_encode {i : Instr} (h : i.wellFormed = true) : decode (encode i) = .ok i.core := by
  cases i with
  | shiftByte b => exact decode_formatB b
  | renderRow j => exact decode_formatJ (by simpa [Instr.wellFormed] using h)
  | setData v => cases v <;> rfl
  | _ => rfl

/-- The round trip from words (R64, R65). -/
theorem encode_of_decode {w : Word} {i : Instr} (h : decode w = .ok i) :
    encode i = w ∧ i.wellFormed = true ∧ i ≠ .clearData := by
  obtain ⟨r, hr, hw, rfl⟩ := decode_ok_iff.1 h
  exact ⟨OpRow.encode_build hr hw, OpRow.build_wellFormed hr w⟩

/-! ### The reserved words -/

/-- The numbers between the rows' intervals, in the order of the opcode map. -/
def BetweenRows (n : Nat) : Prop :=
  n < 0x1000 ∨ (0x1001 < n ∧ n < 0x1400) ∨ (0x1401 < n ∧ n < 0x1800) ∨ (0x1801 < n ∧ n < 0x2000)
    ∨ (0x2000 < n ∧ n < 0x3000) ∨ (0x30FF < n ∧ n < 0x4000) ∨ (0x4007 < n ∧ n < 0x5000) ∨ 0x5000 < n

/-- The words that no row accepts are those between the rows (R62). -/
theorem no_row_accepts_iff {w : Word} : (∀ r ∈ opcodeMap, r.accepts w = false) ↔ BetweenRows w.toNat := by
  have hrows : (∀ r ∈ opcodeMap, r.accepts w = false)
      ↔ ∀ r ∈ opcodeMap, ¬ (r.pattern.toNat ≤ w.toNat ∧ w.toNat ≤ r.pattern.toNat + r.maxOperand) :=
    forall₂_congr fun r hr => by rw [← OpRow.accepts_iff hr, Bool.not_eq_true]
  rw [hrows]
  simp only [opcodeMap, List.forall_mem_cons, List.not_mem_nil, false_imp_iff, implies_true, and_true,
    OpRow.maxOperand, BetweenRows, BitVec.reduceNot, BitVec.reduceToNat]
  omega

/-- The three grounds of R63 are the words between the rows. -/
theorem reservedWord_iff {w : Word} : Machine.ReservedWord w ↔ BetweenRows w.toNat := by
  have := w.isLt
  simp only [Machine.ReservedWord, BetweenRows, ne_eq, ← BitVec.toNat_inj, BitVec.le_def, BitVec.reduceToNat,
    opField_toNat, lineField_toNat, BitVec.extractLsb'_toNat, Nat.shiftRight_eq_div_pow]
  omega

/-! ### The command words -/

/-- All commands that have a word of their own, in the order of the opcode map. -/
def commandList : List Instr :=
  [.setData false, .setData true, .clkLow, .clkHigh, .latchLow, .latchHigh, .waitD, .renderFrame]
    ++ (List.finRange 256).map (fun b => .shiftByte (BitVec.ofFin b)) ++ (List.range 8).map .renderRow

theorem commandList_length : commandList.length = 272 := by simp [commandList]

theorem mem_commandList {i : Instr} : i ∈ commandList ↔ i.wellFormed = true ∧ i ≠ .clearData := by
  cases i with
  | shiftByte b => simp [commandList, Instr.wellFormed]
  | renderRow j => simp [commandList, Instr.wellFormed]; omega
  | setData v => cases v <;> simp [commandList, Instr.wellFormed]
  | _ => simp [commandList, Instr.wellFormed]

theorem commandList_nodup : commandList.Nodup := by
  have hbytes : ((List.finRange 256).map (fun b => Instr.shiftByte (BitVec.ofFin b))).Nodup :=
    (List.nodup_finRange 256).map fun a b h => by simpa using h
  have hrows : ((List.range 8).map Instr.renderRow).Nodup := List.nodup_range.map fun a b h => by simpa using h
  simp [commandList, List.nodup_append, hbytes, hrows]

/-- Each of these commands is read back from its word. -/
theorem decode_encode_of_mem {i : Instr} (h : i ∈ commandList) : decode (encode i) = .ok i := by
  obtain ⟨hwf, hne⟩ := mem_commandList.1 h
  rw [decode_encode hwf, Instr.core_of_ne_clearData hne]

theorem encode_injOn_commandList {i k : Instr} (hi : i ∈ commandList) (hk : k ∈ commandList)
    (h : encode i = encode k) : i = k := by
  have := decode_encode_of_mem hi
  rw [h, decode_encode_of_mem hk] at this
  injection this with this
  exact this.symm

theorem mem_commandWords {w : Word} : w ∈ commandList.map encode ↔ ∃ i, decode w = .ok i := by
  rw [List.mem_map]
  constructor
  · rintro ⟨i, hi, rfl⟩
    exact ⟨i, decode_encode_of_mem hi⟩
  · rintro ⟨i, hd⟩
    obtain ⟨henc, hwf, hne⟩ := encode_of_decode hd
    exact ⟨i, mem_commandList.2 ⟨hwf, hne⟩, henc⟩

end Sys2Proof

namespace Sys2Proof.Machine

/-! ### The assembler -/

theorem IsToken.semicolon_not_mem {cs : List Char} (h : IsToken cs) : ';' ∉ cs := fun hm => (h.2 _ hm).2.2 rfl

theorem takeWhile_of_semicolon_not_mem {line : List Char} (h : ';' ∉ line) :
    line.takeWhile (fun ch => ch != ';') = line := (takeWhile_comment h []).2

/-- A line that is one word is a mnemonic without operand (R67). -/
theorem assembleLine_token {name : List Char} (h : IsToken name) :
    assembleLine name = (commandNamed name none).map (fun i => [encode i]) := by
  simp only [assembleLine, takeWhile_of_semicolon_not_mem h.semicolon_not_mem, tokensFrom_token h]

/-- A line of two words is a mnemonic or `.word`, with its operand (R67). -/
theorem assembleLine_two {name operand : List Char} (hn : IsToken name) (ho : IsToken operand) :
    assembleLine (name ++ ' ' :: operand)
      = (numberOf operand).bind fun n =>
          if name = ['.', 'w', 'o', 'r', 'd'] then (rawWord n).map (fun w => [w])
          else (commandNamed name (some n)).map (fun i => [encode i]) := by
  have hline : ';' ∉ name ++ ' ' :: operand := by simp [hn.semicolon_not_mem, ho.semicolon_not_mem]
  simp only [assembleLine, takeWhile_of_semicolon_not_mem hline, tokensFrom_two hn ho]
  cases numberOf operand <;> rfl

/-- A comment adds no word to its line (R67). -/
theorem assembleLine_comment {line : List Char} (h : ';' ∉ line) (comment : List Char) :
    assembleLine (line ++ ';' :: comment) = assembleLine line := by
  unfold assembleLine
  rw [(takeWhile_comment h comment).1, takeWhile_of_semicolon_not_mem h]

/-- A program's words are its first line's and then those of the rest (R67, R148). -/
theorem assemble_cons {line : List Char} {rest : List (List Char)} {ws more : List Word}
    (hl : assembleLine line = some ws) (hr : assemble rest = some more) :
    assemble (line :: rest) = some (ws ++ more) := by
  simp only [assemble, hl, hr]

/-! ### The micro-op lists -/

/-- Four of the eight micro-ops of a bit are delays, whatever its data micro-op (R94). -/
theorem waitCount_bitSeq (src : ByteSource) (i : Fin 8) : waitCount (bitSeq src i) = 4 := by cases src <;> rfl

/-- The other four drive a line (R94). -/
theorem countP_writesLine_bitSeq (src : ByteSource) (i : Fin 8) :
    (bitSeq src i).countP MicroOp.writesLine = 4 := by cases src <;> rfl

theorem waitCount_append (a b : List MicroOp) : waitCount (a ++ b) = waitCount a + waitCount b := List.count_append

theorem waitCount_shiftSeq (src : ByteSource) : waitCount (shiftSeq src) = 32 := by
  simp only [shiftSeq_eq, waitCount_append, waitCount_bitSeq]

theorem countP_writesLine_shiftSeq (src : ByteSource) : (shiftSeq src).countP MicroOp.writesLine = 32 := by
  simp only [shiftSeq_eq, List.countP_append, countP_writesLine_bitSeq]

theorem waitCount_rowSeq (j : Nat) : waitCount (rowSeq j) = 68 := by
  simp only [rowSeq, waitCount_append, waitCount_shiftSeq]
  rfl

theorem countP_writesLine_rowSeq (j : Nat) : (rowSeq j).countP MicroOp.writesLine = 66 := by
  simp only [rowSeq, List.countP_append, countP_writesLine_shiftSeq]
  rfl

theorem waitCount_frameSeq : waitCount frameSeq = 544 := by
  simp only [frameSeq_eq, waitCount_append, waitCount_rowSeq]

/-! ### The micro-op step -/

/-- An untimed WAIT, or a timed one that keeps its contract, is allowed (R86). -/
theorem opAllowed_wait {s : State} (h : s.timed = true → s.params.delayD ≤ drawAt s 0) : opAllowed .wait s := by
  simpa [opAllowed, waitTooShort] using h

/-- An allowed micro-op step ends neither in a fault nor with another cause: `upc` moves on, or the command ends with
`Done` (R71, R126). -/
theorem exec_allowed {i : Instr} {s : State} {op : MicroOp} (hm : s.mode = .busy)
    (ho : (expand i)[s.upc]? = some op) (ha : opAllowed op s) :
    ∃ t, exec i s = .next t ∧ t.faultCause = s.faultCause ∧ t.cmd = s.cmd
      ∧ ((s.upc + 1 < (expand i).length ∧ t.mode = .busy ∧ t.upc = s.upc + 1)
        ∨ (s.upc + 1 = (expand i).length ∧ t.mode = .idle ∧ t.upc = 0
            ∧ ∃ es, eventsOf t = eventsOf s ++ es ++ [.done s.cmd])) := by
  obtain ⟨hmode, hcause⟩ := perform_allowed ha
  have hbusy : (perform op s).mode = .busy := hmode.trans hm
  obtain ⟨hlt, -⟩ := List.getElem?_eq_some_iff.1 ho
  refine ⟨_, exec_busy hm ho, by simp [hcause], by simp, ?_⟩
  rw [settle_busy hbusy]
  by_cases hlast : s.upc + 1 = (expand i).length
  · obtain ⟨es, hes⟩ := perform_trace_prefix op s
    rw [advance_last (by simpa using hlast)]
    exact .inr ⟨hlast, rfl, rfl, es.map Stamped.event, by simp [eventsOf, hes]⟩
  · rw [advance_more (by simpa using hlast)]
    exact .inl ⟨by omega, hbusy, by simp⟩

/-! ### The statements -/

/-- Settles O2: each command's word lies in its row, whose fields give the operand back. -/
theorem decodeOfEncode : Obligations.DecodeOfEncode :=
  fun _ hwf => ⟨decode_encode hwf, Instr.core_of_ne_clearData, rfl⟩

/-- Settles O3: in every row the fixed bits and the operand's are all of the word. -/
theorem encodeOfDecode : Obligations.EncodeOfDecode := fun _ _ => encode_of_decode

/-- Settles O4: any two rows differ in a bit that both fix. -/
theorem opcodeRowsDoNotOverlap : Obligations.OpcodeRowsDoNotOverlap := by
  intro w
  have hdiffer := opcodeMap_pairwise_differ.filter (fun r => r.accepts w)
  have haccepts : ∀ r ∈ opcodeMap.filter (fun r => r.accepts w), r.accepts w = true :=
    fun r hr => (List.mem_filter.1 hr).2
  generalize opcodeMap.filter (fun r => r.accepts w) = rows at hdiffer haccepts ⊢
  match rows with
  | [] => simp
  | [_] => simp
  | r :: t :: _ =>
    have hrt : r.Differ t := List.rel_of_pairwise_cons hdiffer List.mem_cons_self
    have ht := OpRow.not_accepts_of_differ hrt (haccepts r (by simp))
    simp [haccepts t (by simp)] at ht

/-- Settles O5: the words are those of `commandList`, which the round trips make injective and complete. -/
theorem commandWordsAreTwoHundredSeventyTwo : Obligations.CommandWordsAreTwoHundredSeventyTwo :=
  ⟨commandList.map encode, commandList_nodup.map_on fun _ hi _ hk => encode_injOn_commandList hi hk,
    by rw [List.length_map, commandList_length], fun _ => mem_commandWords⟩

/-- Settles O6: the three grounds are the words outside every row, and their issue is a `raise`. -/
theorem reservedWordsFault : Obligations.ReservedWordsFault := by
  have hrows {w : Word} : ReservedWord w ↔ ∀ r ∈ opcodeMap, r.accepts w = false :=
    reservedWord_iff.trans no_row_accepts_iff.symm
  refine ⟨fun w => hrows.trans decode_error_iff.symm, fun w => hrows, fun w s hw => ?_⟩
  obtain ⟨g, hd⟩ := decode_error_iff.2 (hrows.1 hw)
  rw [issue_error hd]
  exact ⟨rfl, fun hnone => by simp [hnone], eventsOf_raise _ _ s, rfl, rfl, rfl, rfl, rfl, rfl⟩

/-- Settles O7: the mnemonics are looked up in the table, and a line falls into its words. -/
theorem assemblerNamesCommands : Obligations.AssemblerNamesCommands := by
  refine ⟨fun _ => rfl, fun _ => rfl, fun _ => rfl, rfl, rfl, rfl, rfl, rfl, rfl, rfl, by decide, ?superfluous, rfl,
    fun _ => rfl, fun _ => assembleLine_token, ?mnemonic, ?raw, fun _ comment h => assembleLine_comment h comment, rfl,
    fun _ _ _ _ => assemble_cons⟩
  case superfluous =>
    simp only [List.forall_mem_cons]
    exact ⟨fun _ => rfl, fun _ => rfl, fun _ => rfl, fun _ => rfl, fun _ => rfl, fun _ => rfl, fun _ => rfl, nofun⟩
  case mnemonic =>
    intro name operand hn ho hne
    simpa only [hne, if_false] using assembleLine_two hn ho
  case raw =>
    intro operand ho
    exact assembleLine_two (name := ['.', 'w', 'o', 'r', 'd']) (by simp [IsToken]) ho

/-- Settles O13: `settle` and `advance` written out. -/
theorem microOpStep : Obligations.MicroOpStep := by
  intro i s op hm ho
  rw [exec_busy hm ho]
  rfl

/-- Settles O14: the three premises are the checks of the micro-op at `upc`. -/
theorem everyMicroOpCompletes : Obligations.EveryMicroOpCompletes := by
  intro i s hm hlt hrow hcol hwait
  have ho := List.getElem?_eq_getElem hlt
  refine exec_allowed hm ho ?_
  cases hop : (expand i)[s.upc] with
  | pin l v => trivial
  | wait => exact opAllowed_wait (hwait (hop ▸ ho))
  | readRow j => exact hrow j (hop ▸ ho)
  | dataCol k => exact hcol k (hop ▸ ho)

/-- Settles O1: the decoder run on each word. -/
theorem specWordsDecode : Obligations.SpecWordsDecode :=
  ⟨rfl, rfl, rfl, rfl, rfl, rfl, rfl, rfl, rfl, rfl, rfl, rfl, rfl, rfl⟩

/-- Settles O8: the lists counted bit by bit, byte by byte and row by row. -/
theorem expansionLengths : Obligations.ExpansionLengths :=
  ⟨fun _ => rfl, rfl, rfl, rfl, rfl, rfl, rfl, fun _ => shiftSeq_length _, rowSeq_length, frameSeq_length,
    fun _ => waitCount_shiftSeq _, fun j => ⟨waitCount_rowSeq j, countP_writesLine_rowSeq j⟩, waitCount_frameSeq⟩

/-- Settles O10: the main context's turn in BUSY. -/
theorem stepRunsDecodedCommand : Obligations.StepRunsDecodedCommand := by
  intro s i hm hd hn
  have hm' : (afterTurn s).mode = .busy := hm
  have hd' : decode (afterTurn s).cmd = .ok i := hd
  simp only [step_main hn, mainTurn, hm', hd']

/-- Settles O11: the main context's turn in IDLE is the program's next issue, or nothing at its end. -/
theorem callerIssuesNextWord : Obligations.CallerIssuesNextWord := by
  intro s words hpc hm hn hc
  have hstep : step s = .next (programStep words hpc (afterTurn s)) := by
    have hm' : (afterTurn s).mode = .idle := hm
    have hc' : (afterTurn s).caller = .program words hpc := hc
    simp only [step_main hn, mainTurn, hm', callerStep, hc']
  rw [hstep]
  refine ⟨fun w i hw hd => ?_, fun hend => ?_⟩
  · simp only [programStep, hw, issue_ok hd, afterTurn]
  · simp only [programStep, List.getElem?_eq_none hend]

end Sys2Proof.Machine
end

section
/-! PROOFS. Pin primitives: a PIN's whole effect, what of a step can change the chain, the commands of one micro-op and
their runs one after another, assembled into the statements of 41_pin_primitives.md. -/

namespace Sys2Proof.Machine

/-! ### PIN and the chain -/

/-- A pin write as a whole state: one line, the chain's answer and the events (R79). -/
theorem pinWrite_eq (l : Line) (v : Bit) (s : State) :
    pinWrite l v s = { s with
      pins := driveLine s.pins l v
      shiftS := (pinWrite l v s).shiftS
      outQ := (pinWrite l v s).outQ
      trace := s.trace ++ (pinWriteEvents l v s).map (fun e => ⟨stampNow s, e⟩) } := by
  rw [← pinWrite_trace]
  unfold pinWrite
  split
  · cases l <;> rfl
  · rfl

/-- Edges are classified by the level the line had (R75). -/
theorem rises_iff {s : State} {l : Line} {v : Bit} :
    rises s l v = true ↔ lineLevel s.pins l = false ∧ v = true := by
  simp [rises]

/-- Settles O23: line by line, only a rise of CLOCK or of LATCH has an answer of the chain. -/
theorem pinWritesOneLine : Obligations.PinWritesOneLine := by
  intro l v s
  refine congrArg spend ?_
  cases l with
  | data =>
    simp only [pinWrite, edge, ite_self]
    rfl
  | clock =>
    simp only [pinWrite, rises_iff, edge, true_and, if_true, reduceCtorEq, false_and, if_false]
    rfl
  | latch =>
    simp only [pinWrite, rises_iff, edge, true_and, if_true, reduceCtorEq, false_and, if_false]
    rfl

/-- Settles O24: `clockRise` and `latchRise` field by field. -/
theorem chainAnswersEdges : Obligations.ChainAnswersEdges := fun _ =>
  ⟨shiftIn_zero _ _, fun k _ => shiftIn_succ _ _ k _, rfl, fun _ _ => rfl, rfl, fun _ _ => ⟨rfl, rfl⟩⟩

/-- Settles O27: the bits sent fill the near stages, and the rest hold what the chain held, which is ⊥. -/
theorem unshiftedStagesStayUnknown : Obligations.UnshiftedStagesStayUnknown := by
  intro bits _ k hk
  rw [foldl_shiftIn]
  split
  · next hsent => exact (List.getElem?_eq_getElem _).symm
  · next hsent =>
    rw [List.getElem?_eq_none (by simpa using hsent)]
    exact Vector.getElem_replicate _

/-! ### What changes the chain -/

/-- What a step can do to the chain (R76, R77): nothing, or answer the one edge it makes. -/
inductive ChainStep (s t : State) : Prop
  | kept (hS : t.shiftS = s.shiftS) (hQ : t.outQ = s.outQ)
  | shifts (hlow : s.pins.clock = false) (hhigh : t.pins.clock = true) (hQ : t.outQ = s.outQ)
      (hS : t.shiftS = shiftIn (some s.pins.data) s.shiftS)
      (hev : .shift s.pins.data ∈ (eventsOf t).drop s.trace.length)
  | latches (hlow : s.pins.latch = false) (hhigh : t.pins.latch = true) (hS : t.shiftS = s.shiftS)
      (hQ : t.outQ = s.shiftS) (hev : .latch s.shiftS ∈ (eventsOf t).drop s.trace.length)

theorem drop_eventsOf_performPin (l : Line) (v : Bit) (s : State) :
    (eventsOf (performPin l v s)).drop s.trace.length = pinWriteEvents l v s := by
  rw [eventsOf_performPin, List.drop_left' (by simp [eventsOf])]

/-- A PIN changes the chain only where it raises CLOCK or LATCH (R76). -/
theorem performPin_chainStep (l : Line) (v : Bit) (s : State) : ChainStep s (performPin l v s) := by
  by_cases hclock : l = .clock ∧ s.pins.clock = false ∧ v = true
  · obtain ⟨rfl, hlow, rfl⟩ := hclock
    refine .shifts hlow (by simp [driveLine]) ?_ ?_ ?_
    · simp [pinWrite_outQ]
    · simp [pinWrite_shiftS, hlow]
    · simp [drop_eventsOf_performPin, pinWriteEvents, hlow]
  by_cases hlatch : l = .latch ∧ s.pins.latch = false ∧ v = true
  · obtain ⟨rfl, hlow, rfl⟩ := hlatch
    refine .latches hlow (by simp [driveLine]) ?_ ?_ ?_
    · simp [pinWrite_shiftS]
    · simp [pinWrite_outQ, hlow]
    · simp [drop_eventsOf_performPin, pinWriteEvents, hlow]
  exact .kept (by simp only [performPin_shiftS, pinWrite_shiftS, hclock, if_false])
    (by simp only [performPin_outQ, pinWrite_outQ, hlatch, if_false])

/-- Of the micro-ops only a PIN or a DATA_COL can change the chain (R76). -/
theorem perform_chainStep (op : MicroOp) (s : State) : ChainStep s (perform op s) := by
  cases op with
  | pin l v => exact performPin_chainStep l v s
  | wait => exact .kept (performWait_shiftS s) (performWait_outQ s)
  | readRow j => exact .kept (performReadRow_shiftS j s) (performReadRow_outQ j s)
  | dataCol i =>
    cases hcol : s.colbyte with
    | none => exact .kept (by simp [perform, performDataCol, hcol]) (by simp [perform, performDataCol, hcol])
    | some b => simpa only [perform, performDataCol, hcol] using performPin_chainStep .data (bitOf b i) s

/-- The advance leaves lines and chain alone and takes no event away (R71). -/
theorem ChainStep.settled {s t : State} (h : ChainStep s t) (n : Nat) : ChainStep s (settle n t) := by
  have hgrow : (eventsOf t).drop s.trace.length ⊆ (eventsOf (settle n t)).drop s.trace.length :=
    (((trace_prefix_settle n t).map Stamped.event).drop _).subset
  cases h with
  | kept hS hQ => exact .kept (by simpa using hS) (by simpa using hQ)
  | shifts hlow hhigh hQ hS hev =>
    exact .shifts hlow (by simpa using hhigh) (by simpa using hQ) (by simpa using hS) (hgrow hev)
  | latches hlow hhigh hS hQ hev =>
    exact .latches hlow (by simpa using hhigh) (by simpa using hS) (by simpa using hQ) (hgrow hev)

/-- Of all agents but reset only the running command can change the chain (R31, R76). -/
theorem step_chainStep {s t : State} (hn : NoResetNext s) (hstep : step s = .next t) : ChainStep (afterTurn s) t := by
  rcases step_next hstep with ⟨-, -, rfl⟩ | ⟨-, -, i, -, he⟩ | ⟨turn, rest, hs, -, rfl⟩
  · obtain ⟨-, hS, hQ, -⟩ := callerStep_keeps (afterTurn s)
    exact .kept hS hQ
  · obtain ⟨op, -, rfl⟩ := exec_next_mem he
    exact (perform_chainStep op _).settled _
  · obtain ⟨-, -, -, -, -, -, -, -, -, -, hS, hQ, -⟩ := otherTurn_keeps (s := afterTurn s) (hn.ne_reset hs)
    exact .kept hS hQ

/-- Settles O25: a step answers one edge or leaves the chain alone, so what differs names the edge. -/
theorem onlyRisingEdgesChangeChain : Obligations.OnlyRisingEdgesChangeChain := by
  intro s t hn hstep
  cases step_chainStep hn hstep with
  | kept hS hQ => exact ⟨fun h => absurd hS h, fun h => absurd hQ h⟩
  | shifts hlow hhigh hQ hS hev => exact ⟨fun _ => ⟨hlow, hhigh, hQ, hS, hev⟩, fun h => absurd hQ h⟩
  | latches hlow hhigh hS hQ hev => exact ⟨fun h => absurd hS h, fun _ => ⟨hlow, hhigh, hS, hQ, hev⟩⟩

/-! ### WAIT -/

/-- A WAIT drawn short lets its duration pass and raises TIMING (R86, R132). -/
theorem perform_wait_short {s : State} (ht : s.timed = true) (hd : drawAt s 0 < s.params.delayD) :
    perform .wait s = raise .timing none (spend s) :=
  perform_refused (by simp [opAllowed, waitTooShort, ht, hd])

/-- Settles O22: a WAIT is allowed, and only spends its draw, or is drawn short. -/
theorem waitContract : Obligations.WaitContract := by
  refine ⟨fun s ht => ?untimed, fun s ht => ?time, fun s ht hd => ?kept, fun s ht hd hc => ?short,
    fun i s hm ho ht hd => ?stops⟩
  case untimed =>
    rw [perform_wait_allowed (opAllowed_wait (by simp [ht])), spend_untimed ht]
  case time =>
    rw [← spend_now_timed ht]
    rcases Nat.lt_or_ge (drawAt s 0) s.params.delayD with hd | hd
    · rw [perform_wait_short ht hd, raise_now]
    · rw [perform_wait_allowed (opAllowed_wait fun _ => hd)]
  case kept =>
    rw [perform_wait_allowed (opAllowed_wait fun _ => hd)]
    exact ⟨rfl, rfl, rfl⟩
  case short =>
    rw [perform_wait_short ht hd]
    exact ⟨rfl, by simp [hc], by simp⟩
  case stops =>
    rw [exec_busy hm ho, settle_not_busy (by simp [perform_wait_short ht hd])]

/-! ### The commands of one micro-op -/

/-- A command of one allowed micro-op ends with it (R19, R71). -/
theorem exec_single {i : Instr} {op : MicroOp} {s : State} (hi : expand i = [op]) (hs : Started s)
    (ha : opAllowed op s) :
    exec i s = .next (emit (.done (perform op s).cmd) { perform op s with mode := .idle, upc := 0 }) := by
  obtain ⟨hbusy, hupc⟩ := hs
  rw [exec_busy hbusy (op := op) (by simp [hi, hupc]), settle_busy ((perform_allowed ha).1.trans hbusy),
    advance_last (by simp [hi, hupc])]

/-- A command of one PIN, from any lines and chain (R79, R82 to R88). -/
theorem exec_single_pin {i : Instr} {l : Line} {v : Bit} {s : State} (hi : expand i = [.pin l v]) (hs : Started s) :
    exec i s = .next (commandEnded s (driveLine s.pins l v) (pinWrite l v s).shiftS (pinWrite l v s).outQ
      (pinWriteEvents l v s)) := by
  rw [exec_single hi hs trivial, perform, performPin, pinWrite_eq]
  rfl

/-- Of those a write of DATA, and of a low level, makes no edge that the chain answers (R76). -/
theorem exec_single_pin_noRise {i : Instr} {l : Line} {v : Bit} {s : State} (hi : expand i = [.pin l v])
    (hs : Started s) (hv : l = .data ∨ v = false) :
    exec i s = .next (commandEnded s (driveLine s.pins l v) s.shiftS s.outQ [.pin l (lineLevel s.pins l) v]) := by
  rw [exec_single_pin hi hs, pinWrite_shiftS, pinWrite_outQ, pinWriteEvents]
  rcases hv with rfl | rfl <;> simp

/-- A WAIT_D with a kept delay (R89). -/
theorem exec_waitD {s : State} (hs : Started s) (hw : s.timed = true → s.params.delayD ≤ drawAt s 0) :
    exec .waitD s = .next (commandEnded s s.pins s.shiftS s.outQ []) := by
  have ha := opAllowed_wait hw
  rw [exec_single rfl hs ha, perform_wait_allowed ha]
  simp only [commandEnded, List.map_nil, List.append_nil]
  rfl

theorem eventsOf_commandEnded (s : State) (lines : Pins) (stages outputs : Chain) (events : List Event) :
    eventsOf (commandEnded s lines stages outputs events) = eventsOf s ++ events ++ [.done s.cmd] := by
  simp [eventsOf, commandEnded, Function.comp_def]

/-- Settles O15: DATA has no edge that the chain answers. -/
theorem setDataDrivesData : Obligations.SetDataDrivesData :=
  ⟨by decide, fun _ _ hs => exec_single_pin_noRise rfl hs (.inl rfl)⟩

/-- Settles O16: CLOCK does not rise. -/
theorem clkLowDrivesClockLow : Obligations.ClkLowDrivesClockLow :=
  ⟨rfl, fun _ hs => exec_single_pin_noRise (l := .clock) rfl hs (.inr rfl)⟩

/-- Settles O17: CLOCK rises where it was low. -/
theorem clkHighShiftsOnRise : Obligations.ClkHighShiftsOnRise := by
  refine ⟨rfl, fun s hs => ?_⟩
  rw [exec_single_pin rfl hs]
  cases hclock : s.pins.clock <;> simp [pinWrite_shiftS, pinWrite_outQ, pinWriteEvents, driveLine, lineLevel, hclock]

/-- Settles O18: its word and its micro-op are SET_DATA 0's. -/
theorem clearDataDrivesDataLow : Obligations.ClearDataDrivesDataLow :=
  ⟨rfl, decode_clearData_word, fun s hs => ⟨rfl, setDataDrivesData.2 false s hs⟩⟩

/-- Settles O19: LATCH does not rise. -/
theorem latchLowDrivesLatchLow : Obligations.LatchLowDrivesLatchLow :=
  ⟨rfl, fun _ hs => exec_single_pin_noRise (l := .latch) rfl hs (.inr rfl)⟩

/-- Settles O20: LATCH rises where it was low. -/
theorem latchHighCopiesOnRise : Obligations.LatchHighCopiesOnRise := by
  refine ⟨rfl, fun s hs => ?_⟩
  rw [exec_single_pin rfl hs]
  cases hlatch : s.pins.latch <;> simp [pinWrite_shiftS, pinWrite_outQ, pinWriteEvents, driveLine, lineLevel, hlatch]

/-- Settles O21: its one WAIT is allowed. -/
theorem waitDCompletes : Obligations.WaitDCompletes := by
  refine ⟨rfl, fun s hs hw => ?_⟩
  have hdelay : s.timed = true → s.params.delayD ≤ drawAt s 0 := fun ht => hw ht 0 Nat.one_pos rfl
  exact ⟨exec_waitD hs hdelay, fun ht => (spend_now_timed ht) ▸ Nat.add_le_add_left (hdelay ht) _,
    fun ht => by rw [spend_untimed ht]⟩

/-! ### Commands issued one after another -/

/-- A command issued and ended by its one step leaves what that step leaves (R55, R71). -/
theorem issueAndRun_single {i : Instr} {op : MicroOp} {s t : State} (hi : expand i = [op])
    (h : exec i (issue (encode i) s) = .next t) : issueAndRun i s = .next t := by
  simp [issueAndRun, execAll, hi, execFor, h]

/-- Commands go on from where those before them ended (R148). -/
theorem runCommands_append (a b : List Instr) {s t : State} (h : runCommands a s = .next t) :
    runCommands (a ++ b) s = runCommands b t := by
  induction a generalizing s with
  | nil =>
    injection h with h
    rw [List.nil_append, h]
  | cons i a ih =>
    simp only [List.cons_append, runCommands] at h ⊢
    split at h
    · exact ih h
    · cases h
    · cases h

/-- What commands that latch nothing have made of a state `s`: these lines and stages, these bits shifted, and one draw
used up by each command. -/
structure ShiftedTo (s : State) (commands : Nat) (lines : Pins) (stages : Chain) (sent : List Bit)
    (t : State) : Prop where
  pins : t.pins = lines
  shiftS : t.shiftS = stages
  outQ : t.outQ = s.outQ
  shifts : shiftEvents (eventsOf t) = shiftEvents (eventsOf s) ++ sent
  latches : latchEvents (eventsOf t) = latchEvents (eventsOf s)
  timed : t.timed = s.timed
  params : t.params = s.params
  draws : s.timed = true → ∀ k, drawAt t k = drawAt s (k + commands)

/-- The commands run from s to their end without fault, and have made of s what `ShiftedTo` says. -/
def RunShiftsTo (s : State) (cmds : List Instr) (lines : Pins) (stages : Chain) (sent : List Bit) : Prop :=
  ∃ t, runCommands cmds s = .next t ∧ t.mode = .idle ∧ ShiftedTo s cmds.length lines stages sent t

theorem RunShiftsTo.nil {s : State} (hm : s.mode = .idle) : RunShiftsTo s [] s.pins s.shiftS [] :=
  ⟨s, rfl, hm, rfl, rfl, rfl, (List.append_nil _).symm, rfl, rfl, rfl, fun _ _ => rfl⟩

section
variable {s : State} {cmds : List Instr} {p : Pins} {q : Chain} {sent : List Bit}

/-- One more command of one micro-op, which ends and latches nothing. -/
theorem RunShiftsTo.snoc (h : RunShiftsTo s cmds p q sent) {i : Instr} {op : MicroOp} (hi : expand i = [op])
    (hwf : i.wellFormed = true) {lines : Pins} {stages : Chain} {events : List Event}
    {sent' : List Bit} (hlatch : latchEvents events = []) (hsent : sent ++ shiftEvents events = sent')
    (hexec : ∀ t, Started t → ShiftedTo s cmds.length p q sent t →
      exec i t = .next (commandEnded t lines stages t.outQ events)) :
    RunShiftsTo s (cmds ++ [i]) lines stages sent' := by
  obtain ⟨t, hrun, -, ht⟩ := h
  have hissue := issue_ok (s := t) (decode_encode hwf)
  have hissued : ShiftedTo s cmds.length p q sent (issue (encode i) t) := by
    rw [hissue]
    exact ⟨ht.pins, ht.shiftS, ht.outQ, ht.shifts, ht.latches, ht.timed, ht.params, ht.draws⟩
  have hstarted : Started (issue (encode i) t) := by
    rw [hissue]
    exact ⟨rfl, rfl⟩
  have hend := issueAndRun_single hi (hexec _ hstarted hissued)
  generalize issue (encode i) t = u at hissued hend
  refine ⟨commandEnded u lines stages u.outQ events, ?_, rfl, rfl, rfl, hissued.outQ, ?_, ?_, hissued.timed,
    hissued.params, fun hs k => ?_⟩
  · simp only [runCommands_append _ _ hrun, runCommands, hend]
  · rw [eventsOf_commandEnded, shiftEvents_append, shiftEvents_append, hissued.shifts, ← hsent]
    simp [shiftEvents]
  · rw [eventsOf_commandEnded, latchEvents_append, latchEvents_append, hissued.latches, hlatch]
    simp [latchEvents]
  · calc drawAt (spend u) k = drawAt u (k + 1) := drawAt_spend (hissued.timed.trans hs) k
      _ = drawAt s (k + 1 + cmds.length) := hissued.draws hs _
      _ = drawAt s (k + (cmds ++ [i]).length) := by rw [List.length_append, Nat.add_assoc, Nat.add_comm 1]; rfl

/-- A write of DATA, or of a low level, moves no chain (R76). -/
theorem RunShiftsTo.noRise (h : RunShiftsTo s cmds p q sent) {i : Instr} {l : Line} {v : Bit}
    (hi : expand i = [.pin l v]) (hwf : i.wellFormed = true) (hv : l = .data ∨ v = false) :
    RunShiftsTo s (cmds ++ [i]) (driveLine p l v) q sent := by
  refine h.snoc (events := [.pin l (lineLevel p l) v]) hi hwf rfl (List.append_nil _) fun t hstarted ht => ?_
  rw [exec_single_pin_noRise hi hstarted hv, ht.pins, ht.shiftS]

/-- CLK_HIGH with CLOCK low shifts DATA in (R84). -/
theorem RunShiftsTo.clkHigh (h : RunShiftsTo s cmds p q sent) (hlow : p.clock = false) :
    RunShiftsTo s (cmds ++ [.clkHigh]) { p with clock := true } (shiftIn (some p.data) q) (sent ++ [p.data]) := by
  refine h.snoc (events := [.pin .clock false true, .shift p.data]) rfl rfl rfl rfl fun t hstarted ht => ?_
  have hclock : t.pins.clock = false := by rw [ht.pins, hlow]
  rw [clkHighShiftsOnRise.2 t hstarted, hclock, ht.pins, ht.shiftS]
  rfl

/-- A WAIT_D with a kept delay moves nothing (R89). -/
theorem RunShiftsTo.waitD (h : RunShiftsTo s cmds p q sent)
    (hkept : s.timed = true → s.params.delayD ≤ drawAt s cmds.length) :
    RunShiftsTo s (cmds ++ [.waitD]) p q sent := by
  refine h.snoc (events := []) rfl rfl rfl (List.append_nil _) fun t hstarted ht => ?_
  have hdelay : t.timed = true → t.params.delayD ≤ drawAt t 0 := fun htimed => by
    have hs := ht.timed ▸ htimed
    simpa [ht.params, ht.draws hs] using hkept hs
  rw [exec_waitD hstarted hdelay, ht.pins, ht.shiftS]

/-- What such a run leaves, without its bookkeeping of draws. -/
theorem RunShiftsTo.ends (h : RunShiftsTo s cmds p q sent) :
    ∃ t, runCommands cmds s = .next t ∧ t.mode = .idle ∧ t.shiftS = q ∧ t.outQ = s.outQ ∧ t.pins = p
      ∧ shiftEvents (eventsOf t) = shiftEvents (eventsOf s) ++ sent
      ∧ latchEvents (eventsOf t) = latchEvents (eventsOf s) := by
  obtain ⟨t, hrun, hidle, ht⟩ := h
  exact ⟨t, hrun, hidle, ht.shiftS, ht.outQ, ht.pins, ht.shifts, ht.latches⟩

end

/-- Settles O26: of the commands only CLK_HIGH raises a line, with CLOCK driven low and DATA driven to b before it. -/
theorem fourPinCommandsShiftOneBit : Obligations.FourPinCommandsShiftOneBit := by
  intro b s hm
  have hlow := (RunShiftsTo.nil hm).noRise (i := .clkLow) rfl rfl (.inr rfl)
  refine ⟨?plain, fun hkept => ?delayed⟩
  case plain =>
    have hdata := hlow.noRise (i := .setData b) rfl rfl (.inl rfl)
    have hclear := (hdata.clkHigh rfl).noRise (i := .clearData) rfl rfl (.inl rfl)
    exact hclear.ends
  case delayed =>
    have hdata := (hlow.waitD fun ht => hkept ht 0 (by decide)).noRise (i := .setData b) rfl rfl (.inl rfl)
    have hhigh := (hdata.waitD fun ht => hkept ht 1 (by decide)).clkHigh rfl
    have hclear := (hhigh.waitD fun ht => hkept ht 2 (by decide)).noRise (i := .clearData) rfl rfl (.inl rfl)
    exact (hclear.waitD fun ht => hkept ht 3 (by decide)).ends

end Sys2Proof.Machine
end

section
/-! PROOFS. The 8-bit shift: which micro-op stands where in a byte and in a frame, what a byte's micro-ops leave of
chain, lines and trace, and the time that a command's WAITs take, assembled into the statements of 42_shift_byte.md. -/

namespace Sys2Proof.Machine

/-! ### The entries of the lists -/

/-- Blocks of one length m put end to end: entry t of the whole is entry `t mod m` of block `t div m`. -/
theorem getElem?_flatMap_of_length {α β : Type} {f : α → List β} {m : Nat} (hm : 0 < m)
    (hf : ∀ x, (f x).length = m) (l : List α) (t : Nat) :
    (l.flatMap f)[t]? = l[t / m]?.bind fun x => (f x)[t % m]? := by
  induction l generalizing t with
  | nil => simp
  | cons x l ih =>
    rw [List.flatMap_cons]
    rcases Nat.lt_or_ge t m with hlt | hge
    · rw [List.getElem?_append_left (by rwa [hf]), Nat.div_eq_of_lt hlt, Nat.mod_eq_of_lt hlt]
      rfl
    · rw [List.getElem?_append_right (by rwa [hf]), hf, ih, Nat.div_eq_sub_div hm hge, Nat.mod_eq_sub_mod hge,
        List.getElem?_cons_succ]

/-- Settles O9: the bits of a byte have eight micro-ops each, and the rows of a frame 135. -/
theorem sequenceEntries : Obligations.SequenceEntries := by
  refine ⟨fun src t ht => ?byte, fun f hf => ?frame⟩
  case byte =>
    have hbit : (List.finRange 8)[t / 8]? = some ⟨t / 8, by omega⟩ := by
      simp [show t / 8 < 8 by omega]
    rw [shiftSeq, getElem?_flatMap_of_length (by decide) (bitSeq_length src), hbit, Option.bind_some]
  case frame =>
    have hrow : (List.range 8)[f / 135]? = some (f / 135) := List.getElem?_range (by omega)
    rw [frameSeq, getElem?_flatMap_of_length (by decide) rowSeq_length, hrow, Option.bind_some]

/-! ### One byte -/

/-- A byte that is there to be sent asks for kept delays only (R99). -/
theorem allAllowed_shiftSeq {src : ByteSource} {b : Byte} {s : State} (hb : sourceByte src s = some b)
    (hw : WaitsKept (shiftSeq src) s) : allAllowed (shiftSeq src) s := by
  cases src with
  | const c => exact allAllowed_shiftSeq_const hw
  | col =>
    have hcol : s.colbyte ≠ none := Option.ne_none_iff_exists'.2 ⟨b, hb⟩
    exact allAllowed_of_waitsKept hw (fun j hj => absurd hj (readRow_not_mem_shiftSeq _ j))
      fun hnone => absurd hnone hcol

/-- What a whole SHIFT_BYTE leaves: what its byte's micro-ops leave, and `Done` (R97, R98). -/
theorem execAll_shiftByte {b : Byte} {s : State} (hs : Started s) (hw : WaitsKept (expand (.shiftByte b)) s) :
    ∃ u t, execFor (.shiftByte b) 63 s = .next u ∧ exec (.shiftByte b) u = .next t
      ∧ execAll (.shiftByte b) s = .next t ∧ t.mode = .idle ∧ t.upc = 0
      ∧ t.shiftS = (sentBits b).foldl (fun q v => shiftIn (some v) q) s.shiftS ∧ t.outQ = s.outQ
      ∧ t.pins = ⟨false, true, s.pins.latch⟩ ∧ t.colbyte = s.colbyte
      ∧ eventsOf t = eventsOf s ++ byteEvents s.pins b ++ [.done s.cmd] ∧ t.faultCause = s.faultCause
      ∧ EnvironmentKept s t := by
  have ha := allAllowed_shiftSeq (src := .const b) rfl hw
  obtain ⟨u, t, hfor, hlast, hall, hidle, hupc, hS, hQ, hp, hcol, -, hev, hcause, henv⟩ :=
    execAll_ends (i := .shiftByte b) (ops := shiftSeq (.const b)) rfl hs ha (by simp)
  obtain ⟨rp, rS, rQ, rcol, rev⟩ := runOps_shiftSeq (src := .const b) rfl ha
  exact ⟨u, t, by simpa using hfor, hlast, hall, hidle, hupc, hS.trans rS, hQ.trans rQ, hp.trans rp, hcol.trans rcol,
    by rw [hev, rev], hcause, henv⟩

/-- Settles O30: the bits sent stand reversed in the near stages, and the byte's events hold no `Latch`. -/
theorem shiftByteResult : Obligations.ShiftByteResult := by
  intro b s hs hw
  obtain ⟨u, t, hfor, hlast, hall, hidle, hupc, hS, hQ, hp, hcol, hev, hcause, henv⟩ := execAll_shiftByte hs hw
  obtain ⟨hnear, hfar⟩ := foldl_sentBits b s.shiftS
  obtain ⟨hshift, hlatch, -⟩ := byteEvents_kinds s.pins b
  refine ⟨u, t, hfor, hlast, hall, hidle, hupc, by simpa only [hS] using hnear, by simpa only [hS] using hfar, hQ, hp,
    ?shifts, ?latches, hcol, hcause, henv⟩
  case shifts =>
    rw [hev, shiftEvents_append, shiftEvents_append, hshift]
    exact List.append_nil _
  case latches =>
    rw [hev, latchEvents_append, latchEvents_append, hlatch]
    simp [latchEvents]

/-- Settles O31: the byte is the source's, and its micro-ops leave what `runOps_shiftSeq` says. -/
theorem shiftSequenceResult : Obligations.ShiftSequenceResult := by
  intro src b s hsrc hw
  have hb : sourceByte src s = some b := by
    rcases hsrc with rfl | ⟨rfl, hcol⟩
    · rfl
    · exact hcol
  obtain ⟨hp, hS, hQ, -, hev⟩ := runOps_shiftSeq hb (allAllowed_shiftSeq hb hw)
  obtain ⟨hnear, hfar⟩ := foldl_sentBits b s.shiftS
  intro t
  have ht : runOps (shiftSeq src) s = t := rfl
  clear_value t
  rw [ht] at hp hS hQ hev
  refine ⟨by simpa only [hS] using hnear, by simpa only [hS] using hfar, ?shifts, hQ, fun i => ?views, hp⟩
  case shifts => rw [hev, shiftEvents_append, (byteEvents_kinds s.pins b).1]
  case views => exact ⟨congrArg (rowOut · i) hQ, congrArg (colOut · i) hQ⟩

/-- Settles O32: the events are those of the byte's micro-ops, with `Done` after them. -/
theorem shiftByteEvents : Obligations.ShiftByteEvents := by
  intro b s hs hw
  obtain ⟨u, t, -, -, hall, -, -, -, -, -, -, hev, -⟩ := execAll_shiftByte hs hw
  obtain ⟨hshift, -, -, hpins⟩ := byteEvents_kinds s.pins b
  exact ⟨t, hall, hev, hpins, by rw [hshift, sentBits_length]⟩

/-! ### The time of a command -/

/-- Where micro-op steps of a command end outside FAULT, none of them began in it (R128). -/
theorem mode_ne_fault_of_execFor {i : Instr} {n : Nat} {s t : State} (h : execFor i n s = .next t)
    (ht : t.mode ≠ .fault) : s.mode ≠ .fault := by
  cases n with
  | zero =>
    injection h with h
    rwa [h]
  | succ n =>
    rw [execFor] at h
    split at h
    · next u hu => simp [(exec_next hu).1]
    · cases h
    · cases h

/-- A micro-op step that does not fault: its micro-op was allowed, and it is the last, or `upc` moves on (R71). -/
theorem exec_next_allowed {i : Instr} {s t : State} (h : exec i s = .next t) (ht : t.mode ≠ .fault) :
    ∃ op, (expand i)[s.upc]? = some op ∧ opAllowed op s ∧ t.now = (spend s).now
      ∧ (s.upc + 1 = (expand i).length ∨ t.upc = s.upc + 1) := by
  obtain ⟨hbusy, op, ho, rfl⟩ := exec_next h
  have ha : opAllowed op s := by
    by_contra hn
    rw [perform_refused hn, settle_not_busy (by simp)] at ht
    exact ht rfl
  obtain ⟨t, he, -, -, hadvance⟩ := exec_allowed hbusy ho ha
  rw [h] at he
  injection he with he
  subst he
  refine ⟨op, ho, ha, by simpa using (perform_time ha).1, ?_⟩
  rcases hadvance with ⟨-, -, hupc⟩ | ⟨hlast, -⟩
  · exact .inr hupc
  · exact .inl hlast

/-- An allowed micro-op takes `DELAY_D` if it is a WAIT (R86). -/
theorem waitCount_mul_delayD_le_spend {op : MicroOp} {s : State} (hs : s.timed = true) (ha : opAllowed op s) :
    s.now + waitCount [op] * s.params.delayD ≤ (spend s).now := by
  by_cases hop : op = .wait
  · subst hop
    have hkept : s.params.delayD ≤ drawAt s 0 := by simpa [opAllowed, waitTooShort, hs] using ha
    simpa [spend_now_timed hs, waitCount] using hkept
  · have hzero : waitCount [op] = 0 := List.count_eq_zero.2 (by simpa using Ne.symm hop)
    simpa [hzero] using now_le_spend s

/-- Micro-op steps that end without fault have taken `DELAY_D` for each WAIT among them (R86, R101). -/
theorem waitCount_mul_delayD_le_execFor {i : Instr} {n : Nat} {s t : State} (hs : s.timed = true)
    (h : execFor i n s = .next t) (ht : t.mode ≠ .fault) :
    s.now + waitCount (((expand i).drop s.upc).take n) * s.params.delayD ≤ t.now := by
  induction n generalizing s with
  | zero =>
    injection h with h
    simp [h, waitCount]
  | succ n ih =>
    rw [execFor] at h
    split at h
    · next u hu =>
      obtain ⟨op, ho, ha, hnow, hupc⟩ := exec_next_allowed hu (mode_ne_fault_of_execFor h ht)
      obtain ⟨-, -, -, -, -, -, -, -, htimed, hparams, -⟩ := commandsKeepEnvironment i s u hu
      have hrest := ih (htimed.trans hs) h
      have hfirst := waitCount_mul_delayD_le_spend hs ha
      obtain ⟨hlt, rfl⟩ := List.getElem?_eq_some_iff.1 ho
      rw [hparams, hnow] at hrest
      rw [List.drop_eq_getElem_cons hlt, List.take_succ_cons, ← List.singleton_append, waitCount_append, Nat.add_mul]
      rcases hupc with hlast | hupc
      · have hnil : waitCount (((expand i).drop (s.upc + 1)).take n) = 0 := by simp [hlast, waitCount]
        rw [hnil]
        omega
      · rw [hupc] at hrest
        omega
    · cases h
    · cases h

/-- Settles O57: the steps of a whole command run all of its list. -/
theorem commandsTakeTheirDelays : Obligations.CommandsTakeTheirDelays := by
  intro i s t htimed hs hall hidle
  obtain ⟨-, hupc⟩ := hs
  have h := waitCount_mul_delayD_le_execFor htimed hall (by simp [hidle])
  rwa [hupc, List.drop_zero, List.take_length] at h

end Sys2Proof.Machine
end

section
/-! PROOFS. Rows and frames: the row-select byte, what READ_ROW and DATA_COL do and raise, the events of a row and of
rows one after another, and what a frame's micro-ops leave, assembled into the statements of 43_render.md. -/

namespace Sys2Proof.Machine

/-! ### The row-select byte -/

/-- Reversed, the select byte of a row is that of the row as far from the other end (R107). -/
theorem rev8_rowsel {j : Nat} (hj : j ≤ 7) : rev8 (rowsel j) = rowsel (7 - j) := by
  apply BitVec.eq_of_getLsbD_eq
  intro k hk
  have hleft : (rowsel j).getLsbD (7 - k) = decide (7 - k ≠ j) := bitOf_rowsel j ⟨7 - k, by omega⟩
  have hright : (rowsel (7 - j)).getLsbD k = decide (k ≠ 7 - j) := bitOf_rowsel (7 - j) ⟨k, hk⟩
  rw [rev8_getLsbD _ _ hk, hleft, hright, decide_eq_decide]
  omega

/-- Settles O33: a bit of the select byte is high exactly off its own row. -/
theorem rowSelectBytes : Obligations.RowSelectBytes := by
  refine ⟨fun j i => ?bits, fun j => rev8_rowsel (Nat.le_of_lt_succ j.isLt), by decide⟩
  case bits => simp [bitOf_rowsel, Fin.ext_iff]

/-! ### READ_ROW and DATA_COL -/

/-- The first fault raised, as a whole state (R130). -/
theorem raise_first {s : State} (h : s.faultCause = .none) (c : FaultCause) (w : Option Word) :
    raise c w s = { s with mode := .fault, faultCause := c, trace := s.trace ++ [⟨stampNow s, .fault c w⟩] } := by
  rw [raise, if_pos h]
  rfl

/-- A READ_ROW above 7 raises ROW_RANGE and reads nothing (R123). -/
theorem perform_readRow_out_of_range {j : Nat} (hj : 7 < j) (s : State) :
    perform (.readRow j) s = raise .rowRange none s :=
  perform_refused (Nat.not_le.2 hj)

/-- A DATA_COL of an unwritten `colbyte` raises UNWRITTEN (R124). -/
theorem perform_dataCol_unwritten {s : State} (h : s.colbyte = none) (i : Fin 8) :
    perform (.dataCol i) s = raise .unwritten none s :=
  perform_refused (not_not.2 h)

/-- A row's READ_ROW stands after the three micro-ops of its start and the 64 of its select byte (R108). -/
theorem rowSeq_getElem?_readRow (j : Nat) : (rowSeq j)[67]? = some (.readRow j) := by
  have hbefore : ([MicroOp.wait, .pin .latch false, .wait] ++ shiftSeq (.const (rowsel j))).length = 67 := by simp
  rw [rowSeq, List.append_assoc, List.append_assoc, List.getElem?_append_right (Nat.le_of_eq hbefore), hbefore]
  rfl

/-- Settles O34: the check of a READ_ROW is its row's range, and a fault leaves the advance undone. -/
theorem readRowReadsPlayfield : Obligations.ReadRowReadsPlayfield := by
  refine ⟨fun j s hj => ?reads, fun j s hj hcause => ?refuses, fun j s hj hbusy hupc hcause => ?stops⟩
  case reads =>
    simp only [perform, performReadRow, if_neg (Nat.not_lt.2 hj)]
    rfl
  case refuses => rw [perform_readRow_out_of_range hj, raise_first hcause]
  case stops =>
    have hop : (expand (.renderRow j))[s.upc]? = some (.readRow j) := hupc ▸ rowSeq_getElem?_readRow j
    rw [exec_busy hbusy hop, perform_readRow_out_of_range hj, settle_not_busy (by simp), raise_first hcause]

/-- Settles O35: a written `colbyte` makes a DATA_COL a PIN, an unwritten one a fault. -/
theorem dataColDrivesColumnBit : Obligations.DataColDrivesColumnBit := by
  refine ⟨fun i b s hcol => ?drives, fun i s hcol hcause => ?refuses⟩
  case drives => simp only [perform, performDataCol, hcol]
  case refuses => rw [perform_dataCol_unwritten hcol, raise_first hcause]

/-! ### The events of rows -/

/-- What a row's events hold of each kind (R112). -/
theorem rowEvents_kinds (p : Pins) (j : Nat) (v : Byte) :
    shiftEvents (rowEvents p j v) = sentBits (rowsel j) ++ sentBits v
      ∧ latchEvents (rowEvents p j v) = [rowImage j v] ∧ readEvents (rowEvents p j v) = [(j, v)]
      ∧ (pinEvents (rowEvents p j v)).length = 66 := by
  obtain ⟨hshift, hlatch, hread, hpin⟩ := byteEvents_kinds ⟨p.data, p.clock, false⟩ (rowsel j)
  obtain ⟨hshift', hlatch', hread', hpin'⟩ := byteEvents_kinds ⟨false, true, false⟩ v
  simp only [rowEvents, shiftEvents_append, latchEvents_append, readEvents_append, pinEvents_append,
    List.length_append, hshift, hlatch, hread, hpin, hshift', hlatch', hread', hpin']
  simp [shiftEvents, latchEvents, readEvents, pinEvents]

/-- A command's `Done` is of none of the four kinds. -/
theorem done_kinds (es : List Event) (w : Word) :
    shiftEvents (es ++ [Event.done w]) = shiftEvents es ∧ latchEvents (es ++ [Event.done w]) = latchEvents es
      ∧ readEvents (es ++ [Event.done w]) = readEvents es ∧ pinEvents (es ++ [Event.done w]) = pinEvents es := by
  simp [shiftEvents, latchEvents, readEvents, pinEvents]

/-- Rows one after another: each is read and latched once, in order, with 16 `Shift` and 66 `Pin` events (R114). -/
theorem runOps_rows_events {rows : List Nat} {s : State} (hrows : ∀ j ∈ rows, j ≤ 7)
    (h : allAllowed (rows.flatMap rowSeq) s) :
    let es := eventsOf (runOps (rows.flatMap rowSeq) s)
    latchEvents es = latchEvents (eventsOf s) ++ rows.map (fun j => rowImage j (Memory.read s.pf j))
      ∧ readEvents es = readEvents (eventsOf s) ++ rows.map (fun j => (j, Memory.read s.pf j))
      ∧ (shiftEvents es).length = (shiftEvents (eventsOf s)).length + 16 * rows.length
      ∧ (pinEvents es).length = (pinEvents (eventsOf s)).length + 66 * rows.length := by
  induction rows generalizing s with
  | nil => simp
  | cons j rows ih =>
    obtain ⟨hj, hrest⟩ := List.forall_mem_cons.1 hrows
    rw [List.flatMap_cons] at h ⊢
    obtain ⟨hrow, hothers⟩ := (allAllowed_append _ _ _).1 h
    obtain ⟨-, -, -, -, hev⟩ := runOps_rowSeq hj hrow
    obtain ⟨-, -, hpf, -⟩ := runOps_env (rowSeq j) s
    obtain ⟨hshift, hlatch, hread, hpin⟩ := rowEvents_kinds s.pins j (Memory.read s.pf j)
    obtain ⟨ihlatch, ihread, ihshift, ihpin⟩ := ih hrest hothers
    simp only [hpf, hev, latchEvents_append, readEvents_append, shiftEvents_append, pinEvents_append, hlatch, hread,
      hshift, List.length_append, hpin, sentBits_length] at ihlatch ihread ihshift ihpin
    rw [runOps_append]
    refine ⟨by simp [ihlatch], by simp [ihread], ?_, ?_⟩
    · rw [ihshift, List.length_cons]
      omega
    · rw [ihpin, List.length_cons]
      omega

/-- A frame ends with row 7 (R114). -/
theorem frameSeq_eq_append_last : frameSeq = (List.range 7).flatMap rowSeq ++ rowSeq 7 := by
  rw [frameSeq, List.range_succ, List.flatMap_append, List.flatMap_singleton]

/-- What a frame's micro-ops leave of lines, chain and `colbyte` is what row 7 leaves (R115). -/
theorem runOps_frameSeq {s : State} (h : allAllowed frameSeq s) :
    let t := runOps frameSeq s
    t.pins = ⟨false, true, true⟩ ∧ t.shiftS = rowImage 7 (Memory.read s.pf 7)
      ∧ t.outQ = rowImage 7 (Memory.read s.pf 7) ∧ t.colbyte = some (Memory.read s.pf 7) := by
  rw [frameSeq_eq_append_last] at h ⊢
  obtain ⟨hp, hS, hQ, hcol, -⟩ := runOps_rowSeq (Nat.le_refl 7) ((allAllowed_append _ _ _).1 h).2
  obtain ⟨-, -, hpf, -⟩ := runOps_env ((List.range 7).flatMap rowSeq) s
  rw [hpf] at hS hQ hcol
  rw [runOps_append]
  exact ⟨hp, hS, hQ, hcol⟩

/-! ### The statements -/

/-- Settles O36: its micro-ops leave what `runOps_rowSeq` says, and `Done` is no shift, latch or read. -/
theorem renderRowResult : Obligations.RenderRowResult := by
  intro j s hj hs hw
  have ha := allAllowed_rowSeq hj hw
  obtain ⟨u, t, hfor, hlast, hall, hidle, hupc, hS, hQ, hp, hcol, -, hev, hcause, henv⟩ :=
    execAll_ends (i := .renderRow j) (ops := rowSeq j) rfl hs ha (by simp)
  obtain ⟨rp, rS, rQ, rcol, rev⟩ := runOps_rowSeq hj ha
  obtain ⟨dshift, dlatch, dread, -⟩ := done_kinds (eventsOf (runOps (rowSeq j) s)) s.cmd
  obtain ⟨hshift, hlatch, hread, -⟩ := rowEvents_kinds s.pins j (Memory.read s.pf j)
  have himage : t.outQ = rowImage j (Memory.read s.pf j) := hQ.trans rQ
  refine ⟨u, t, by simpa using hfor, hlast, hall, hidle, hupc, hS.trans rS, ?same, fun i => ?views, hcol.trans rcol,
    hp.trans rp, ?shifts, ?latches, ?reads, hcause, henv⟩
  case same => rw [himage, hS, rS]
  case views => rw [himage]; exact rowImage_views _ _ i
  case shifts => rw [hev, dshift, rev, shiftEvents_append, hshift, List.append_assoc]
  case latches => rw [hev, dlatch, rev, latchEvents_append, hlatch]
  case reads => rw [hev, dread, rev, readEvents_append, hread]

/-- Settles O38: the events are those of the eight rows one after another, and the end state is the last row's. -/
theorem renderFrameResult : Obligations.RenderFrameResult := by
  intro s hs hw
  have ha := allAllowed_frameSeq hw
  obtain ⟨u, t, hfor, hlast, hall, hidle, hupc, hS, hQ, hp, hcol, -, hev, hcause, henv⟩ :=
    execAll_ends (i := .renderFrame) (ops := frameSeq) rfl hs ha (by simp [frameSeq_length])
  obtain ⟨rp, rS, rQ, rcol⟩ := runOps_frameSeq ha
  obtain ⟨dshift, dlatch, dread, dpin⟩ := done_kinds (eventsOf (runOps frameSeq s)) s.cmd
  have hrows : ∀ j ∈ List.range 8, j ≤ 7 := fun j hj => Nat.le_of_lt_succ (List.mem_range.1 hj)
  obtain ⟨hlatch, hread, hshift, hpin⟩ := runOps_rows_events hrows ha
  refine ⟨u, t, by simpa [frameSeq_length] using hfor, hlast, hall, hidle, hupc, ?latches, ?reads, ?shifts, ?pins,
    hS.trans rS, hQ.trans rQ, hcol.trans rcol, hp.trans rp, hcause, henv⟩
  case latches => rw [hev, dlatch]; exact hlatch
  case reads => rw [hev, dread]; exact hread
  case shifts => rw [hev, dshift]; exact hshift
  case pins => rw [hev, dpin]; exact hpin

end Sys2Proof.Machine
end

section
/-! PROOFS. Exceptions: what a faulting micro-op step leaves, the main loop's and a program's turn as a step, the timer
handler and its ticks, assembled into the statements of 60_exceptions.md. -/

namespace Sys2Proof.Machine

/-! ### Faults -/

/-- A command that faults has taken nothing but the `raise` of the micro-op at `upc`, whose check failed; a short WAIT's
duration passes before it (R86, R128). -/
theorem exec_enters_fault {i : Instr} {s t : State} (h : exec i s = .next t) (hm : t.mode = .fault) :
    ∃ op, (expand i)[s.upc]? = some op ∧ ¬ opAllowed op s
      ∧ t = raise (opCause op) none (if op = .wait then spend s else s) := by
  obtain ⟨hb, op, ho, rfl⟩ := exec_next h
  have hrefused : ¬ opAllowed op s := by
    intro ha
    obtain ⟨u, hu, -, -, hends⟩ := exec_allowed hb ho ha
    obtain rfl : settle (expand i).length (perform op s) = u := by simpa [h] using hu
    rcases hends with ⟨-, hmode, -⟩ | ⟨-, hmode, -⟩ <;> simp [hm] at hmode
  refine ⟨op, ho, hrefused, ?_⟩
  rw [settle_not_busy (by simp [perform_refused hrefused]), perform_refused hrefused]

/-- A WAIT fails its check exactly where its draw in the timed semantics is short (R86, R132). -/
theorem not_opAllowed_wait {s : State} : ¬ opAllowed .wait s ↔ s.timed = true ∧ drawAt s 0 < s.params.delayD := by
  simp [opAllowed, waitTooShort]

/-- No agent but the main context puts the block into FAULT (R121, R134). -/
theorem otherTurn_mode_ne_fault (turn : Turn) {s : State} (h : s.mode ≠ .fault) : (otherTurn turn s).mode ≠ .fault := by
  cases turn with
  | reset u p => simp [otherTurn]
  | main => exact h
  | timer => rwa [(otherTurn_keeps (by simp)).1]
  | serial => exact h
  | elapse d => exact h
  | writeRow j v => exact h

/-! ### The caller's turn as a step -/

/-- In IDLE the main context's turn is its caller's step (R55). -/
theorem step_idle {s : State} (hm : s.mode = .idle) (hn : MainNext s) :
    step s = .next (callerStep (afterTurn s)) := by
  have hm' : (afterTurn s).mode = .idle := hm
  simp only [step_main hn, mainTurn, hm']

theorem step_mainLoop {s : State} {p : LoopPhase} (hm : s.mode = .idle) (hn : MainNext s)
    (hc : s.caller = .mainLoop p) : step s = .next (mainLoopStep p (afterTurn s)) := by
  have hc' : (afterTurn s).caller = .mainLoop p := hc
  simp only [step_idle hm hn, callerStep, hc']

theorem step_program {s : State} {words : List Word} {hpc : Nat} (hm : s.mode = .idle) (hn : MainNext s)
    (hc : s.caller = .program words hpc) : step s = .next (programStep words hpc (afterTurn s)) := by
  have hc' : (afterTurn s).caller = .program words hpc := hc
  simp only [step_idle hm hn, callerStep, hc']

/-- A pass looks at both flags, each once (R137). -/
theorem passOrder_cases (repaintFirst : Bool) :
    passOrder repaintFirst = [.gameUpdate, .repaint] ∨ passOrder repaintFirst = [.repaint, .gameUpdate] := by
  cases repaintFirst
  · exact .inl rfl
  · exact .inr rfl

/-! ### The timer handler -/

/-- A tick requests a game update exactly when the counter reaches the threshold; a request already set stays
(R136, R138). -/
theorem timerHandler_needsGameUpdate_eq_ite (s : State) :
    (timerHandler s).needsGameUpdate
      = if s.tickCount + 1 = s.params.gameDivN then true else s.needsGameUpdate := by
  by_cases h : s.tickCount + 1 = s.params.gameDivN <;> simp [gameTick, h]

/-- Counting to N and starting again is counting modulo N (R136). -/
theorem tickNext_of_mod {s : State} {n : Nat} (h : s.tickCount = n % s.params.gameDivN) :
    tickNext s = (n + 1) % s.params.gameDivN := by
  have hlt : n % s.params.gameDivN < s.params.gameDivN := Nat.mod_lt n (Nat.succ_pos _)
  rw [tickNext, h, ← Nat.mod_add_mod]
  split
  · next hlast => rw [hlast, Nat.mod_self]
  · next hmore => exact (Nat.mod_eq_of_lt (by omega)).symm

theorem iterate_timerHandler_params (n : Nat) (s : State) : (timerHandler^[n] s).params = s.params := by
  induction n with
  | zero => rfl
  | succ n ih => rw [Function.iterate_succ_apply', timerHandler_params, ih]

theorem iterate_timerHandler_tickCount {s : State} (h : s.tickCount = 0) (n : Nat) :
    (timerHandler^[n] s).tickCount = n % s.params.gameDivN := by
  induction n with
  | zero => simp [h]
  | succ n ih =>
    rw [← iterate_timerHandler_params n s] at ih ⊢
    rw [Function.iterate_succ_apply', timerHandler_tickCount, tickNext_of_mod ih]

theorem iterate_timerHandler_needsRepaint (n : Nat) (s : State) :
    (timerHandler^[n] s).needsRepaint = (s.needsRepaint || decide (0 < n)) := by
  cases n with
  | zero => simp
  | succ n => rw [Function.iterate_succ_apply']; simp

/-- The threshold is met for the first time at the N-th tick, and a request once made stays (R136, R138). -/
theorem iterate_timerHandler_needsGameUpdate {s : State} (h : s.tickCount = 0) (n : Nat) :
    (timerHandler^[n] s).needsGameUpdate = (s.needsGameUpdate || decide (s.params.gameDivN ≤ n)) := by
  induction n with
  | zero => simp [Params.gameDivN]
  | succ n ih =>
    rw [Function.iterate_succ_apply', timerHandler_needsGameUpdate_eq_ite, ih, iterate_timerHandler_params,
      iterate_timerHandler_tickCount h]
    rcases Nat.lt_or_ge n s.params.gameDivN with hn | hn
    · rw [Nat.mod_eq_of_lt hn]
      split
      · next hlast => simp [hlast]
      · next hlast => simp [show ¬ s.params.gameDivN ≤ n by omega, show ¬ s.params.gameDivN ≤ n + 1 by omega]
    · simp [hn, Nat.le_succ_of_le hn]

/-! ### The statements -/

/-- Settles O40: `raise` writes the mode, the cause and the trace only, and a short WAIT's duration only the time and the
draws. -/
theorem faultsArePrecise : Obligations.FaultsArePrecise := by
  intro i s t h hm
  obtain ⟨op, -, -, rfl⟩ := exec_enters_fault h hm
  split
  · exact ⟨rfl, rfl, rfl, rfl, rfl, rfl, rfl, _, eventsOf_raise _ _ (spend s)⟩
  · exact ⟨rfl, rfl, rfl, rfl, rfl, rfl, rfl, _, eventsOf_raise _ _ s⟩

/-- Settles O42: the caller faults at an issue only, a running command where the check of its micro-op fails, and no
other agent faults. -/
theorem faultsHaveFourGrounds : Obligations.FaultsHaveFourGrounds := by
  intro s t hstep hm ht hcause
  rcases step_next hstep with ⟨-, hidle, rfl⟩ | ⟨-, hb, i, hd, he⟩ | ⟨turn, rest, -, -, rfl⟩
  · obtain ⟨words, hpc, w, g, hc, hw, hd, hraise⟩ := callerStep_enters_fault (s := afterTurn s) hidle ht
    have hreserved : (callerStep (afterTurn s)).faultCause = .reservedCommand := by
      rw [hraise, raise_faultCause]
      exact if_pos hcause
    exact .inl ⟨hidle, hreserved, words, hpc, w, g, hc, hw, hd⟩
  · obtain ⟨op, ho, hrefused, rfl⟩ := exec_enters_fault he ht
    have hrecorded : (raise (opCause op) none (if op = .wait then spend (afterTurn s) else afterTurn s)).faultCause
        = opCause op := by
      rw [raise_faultCause]
      exact if_pos (by split <;> exact hcause)
    refine .inr ⟨i, hb, hd, ?_⟩
    cases op with
    | pin l v => exact absurd trivial hrefused
    | readRow j => exact .inl ⟨j, Nat.not_le.1 hrefused, ho, hrecorded⟩
    | dataCol k => exact .inr (.inl ⟨k, not_not.1 hrefused, ho, hrecorded⟩)
    | wait =>
      obtain ⟨htimed, hshort⟩ := not_opAllowed_wait.1 hrefused
      exact .inr (.inr ⟨ho, htimed, hshort, hrecorded⟩)
  · exact absurd ht (otherTurn_mode_ne_fault turn (s := afterTurn s) hm)

/-- Settles O48: tick by tick, from the counter at 0. -/
theorem ticksCoalesce : Obligations.TicksCoalesce := fun n s h =>
  ⟨iterate_timerHandler_tickCount h n, iterate_timerHandler_needsRepaint n s,
    iterate_timerHandler_needsGameUpdate h n⟩

/-- Settles O51: the main loop's step in each of the phases that bear on the repaint. -/
theorem mainLoopServicesRepaint : Obligations.MainLoopServicesRepaint := by
  intro s rest hm hn
  refine ⟨fun hc => ?pass, fun hc hflag => ?issues, fun hc => ?clears, fun hc hflag => ?moves⟩
  case pass => exact ⟨_, passOrder_cases _, step_mainLoop hm hn hc⟩
  case issues =>
    have hflag' : (afterTurn s).needsRepaint = true := hflag
    rw [step_mainLoop hm hn hc, mainLoopStep, if_pos hflag', issue_ok decode_frame_word]
    rfl
  case clears => exact step_mainLoop hm hn hc
  case moves =>
    have hflag' : ¬ (afterTurn s).needsRepaint = true := by simp [afterTurn, hflag]
    rw [step_mainLoop hm hn hc, mainLoopStep, if_neg hflag']
    rfl

/-- Settles O52: the main loop's step in each of the phases that bear on the game update. -/
theorem mainLoopServicesGameUpdate : Obligations.MainLoopServicesGameUpdate := by
  intro s rest hm hn
  refine ⟨fun hc hflag => ?runs, fun hc hflag => ?moves, fun hc => ?updates, fun hc hwf => ?pauses, fun hc => ?clears⟩
  case runs =>
    have hflag' : (afterTurn s).needsGameUpdate = true := hflag
    rw [step_mainLoop hm hn hc, mainLoopStep, if_pos hflag']
    rfl
  case moves =>
    have hflag' : ¬ (afterTurn s).needsGameUpdate = true := by simp [afterTurn, hflag]
    rw [step_mainLoop hm hn hc, mainLoopStep, if_neg hflag']
    rfl
  case updates =>
    rw [step_mainLoop hm hn hc, mainLoopStep]
    split
    · exact ⟨_, s.pf, rfl, .inr ⟨rfl, rfl⟩⟩
    · exact ⟨_, gameRows s.freeIndex s.pf, rfl, .inl rfl⟩
  case pauses => exact ⟨_, step_mainLoop hm hn hc, fun _ => Memory.read_clearRows hwf⟩
  case clears => exact step_mainLoop hm hn hc

/-- Settles O60: under the invariant a running command has a micro-op at `upc`, and every other turn but the block's in
FAULT answers a next state. -/
theorem onlyFaultStopsTheBlock : Obligations.OnlyFaultStopsTheBlock := by
  intro s h hm
  by_cases hn : MainNext s
  · cases hmode : s.mode with
    | idle => exact ⟨_, step_idle hmode hn⟩
    | fault => exact absurd hmode hm
    | busy =>
      obtain ⟨i, hd, hlt⟩ := h.busy_upc hmode
      exact ⟨_, (stepRunsDecodedCommand s i hmode hd hn).trans
        (exec_busy (s := afterTurn s) hmode (List.getElem?_eq_getElem hlt))⟩
  · obtain ⟨turn, rest, hs⟩ := List.exists_cons_of_ne_nil fun hs => hn (.inl hs)
    exact ⟨_, step_other hs fun hturn => hn (.inr ⟨rest, hturn ▸ hs⟩)⟩

/-- Settles O12: the program's step issues the word, and the issue of a reserved word is a `raise`. -/
theorem reservedWordFaultsAtIssue : Obligations.ReservedWordFaultsAtIssue := by
  intro s words hpc w g hm hn hcause hc hw hd
  have hnone : { afterTurn s with caller := .program words (hpc + 1) }.faultCause = .none := hcause
  rw [step_program hm hn hc, programStep, hw]
  exact congrArg Host.Outcome.next ((issue_error hd).trans (raise_first hnone _ _))

/-- Settles O39: `raise` read off field by field. -/
theorem raiseKeepsFirstCause : Obligations.RaiseKeepsFirstCause := by
  intro c w s
  refine ⟨raise_mode c w s, fun hnone => ?_, fun hsome => ?_, rfl⟩
  · rw [raise_faultCause, if_pos hnone]
  · rw [raise_faultCause, if_neg hsome]

/-- Settles O47: the timer's turn runs the handler if its tick is ready, and else does nothing. -/
theorem timerHandlerStep : Obligations.TimerHandlerStep := by
  intro s rest hs
  have hafter : afterTurn s = { s with sched := rest } := by simp [afterTurn, hs]
  have hstep : step s = .next (timerTurn (afterTurn s)) := step_other hs (by simp)
  rw [hstep, hafter]
  refine ⟨fun hready => ?ticks, fun htimed hearly => ?waits⟩
  case ticks =>
    have hready' : tickReady { s with sched := rest } = true := by simpa [tickReady] using hready
    rw [timerTurn, if_pos hready', ← timerHandler_needsGameUpdate_eq_ite]
    rfl
  case waits =>
    have hready' : ¬ tickReady { s with sched := rest } = true := by simpa [tickReady, htimed] using hearly
    rw [timerTurn, if_neg hready']

end Sys2Proof.Machine
end

section
/-! PROOFS. Reset and hazards: the reset step, and the WAITs between the transitions of a row and of a frame, counted as
the difference of the WAITs before each of them, assembled into the statements of 70_reset_and_hazards.md. -/

namespace Sys2Proof.Machine

/-! ### The reset step -/

/-- Settles O55: the turn is `resetStep`, whose fields are those of R154. -/
theorem resetStep_fields : Obligations.ResetStep := by
  intro s powerUp draw rest hs
  refine ⟨_, step_other hs (by simp), rfl, rfl, rfl, rfl, rfl, fun hup k hk => ?powerUp, fun hwarm => ?warm,
    rfl, rfl, rfl, rfl, rfl⟩
  case powerUp => simp [otherTurn, hup]
  case warm => simp [otherTurn, hwarm, afterTurn]

/-! ### The WAITs before a micro-op -/

/-- The WAITs between two micro-ops are those before the second less those up to the first. -/
theorem waitsBetween_eq_sub (ops : List MicroOp) {a b : Nat} (h : a < b) :
    waitsBetween ops a b = waitCount (ops.take b) - waitCount (ops.take (a + 1)) := by
  have hsplit : ops.take b = ops.take (a + 1) ++ (ops.take b).drop (a + 1) := by
    conv_lhs => rw [← List.take_append_drop (a + 1) (ops.take b), List.take_take, Nat.min_eq_left h]
  rw [waitsBetween, hsplit, waitCount_append, Nat.add_sub_cancel_left, ← hsplit]

theorem waitCount_nil : waitCount [] = 0 := rfl

/-- The first micro-op counts if it is a WAIT and is taken at all. -/
theorem waitCount_take_cons (op : MicroOp) (ops : List MicroOp) (n : Nat) :
    waitCount ((op :: ops).take n) = (if op = .wait then min n 1 else 0) + waitCount (ops.take (n - 1)) := by
  cases n with
  | zero => simp [waitCount]
  | succ n =>
    rw [List.take_succ_cons, ← List.singleton_append, waitCount_append, Nat.add_sub_cancel]
    by_cases hop : op = .wait <;> simp [waitCount, hop]

theorem waitCount_take_append (ops more : List MicroOp) (n : Nat) :
    waitCount ((ops ++ more).take n) = waitCount (ops.take n) + waitCount (more.take (n - ops.length)) := by
  rw [List.take_append, waitCount_append]

/-- Blocks of one length m put end to end, with p k WAITs among the first k micro-ops of each: the WAITs before entry n
of block q are those of q whole blocks and p n. -/
theorem waitCount_take_flatMap {α : Type} {f : α → List MicroOp} {m : Nat} {p : Nat → Nat}
    (hlen : ∀ x, (f x).length = m) (hp : ∀ x k, waitCount ((f x).take k) = p k) {l : List α} {q n : Nat}
    (hq : q < l.length) (hn : n ≤ m) : waitCount ((l.flatMap f).take (m * q + n)) = p m * q + p n := by
  induction l generalizing q with
  | nil => simp at hq
  | cons x l ih =>
    rw [List.flatMap_cons]
    cases q with
    | zero => simp [List.take_append_of_le_length, hlen, hn, hp]
    | succ q =>
      have hblock : waitCount (f x) = p m := by rw [← hp x m, List.take_of_length_le (hlen x).le]
      rw [show m * (q + 1) + n = (f x).length + (m * q + n) by rw [hlen, Nat.mul_succ]; omega,
        List.take_length_add_append, waitCount_append, hblock, ih (Nat.lt_of_succ_lt_succ hq), Nat.mul_succ]
      omega

theorem dataOp_ne_wait (src : ByteSource) (i : Fin 8) : dataOp src i ≠ .wait := by
  cases src <;> simp [dataOp]

/-- In a bit every second micro-op is a WAIT (R94). -/
theorem waitCount_take_bitSeq (src : ByteSource) (i : Fin 8) (n : Nat) :
    waitCount ((bitSeq src i).take n) = min n 8 / 2 := by
  simp only [bitSeq, waitCount_take_cons, if_neg (dataOp_ne_wait src i), reduceCtorEq, if_false, if_true, List.take_nil,
    waitCount_nil]
  omega

/-- And so in a byte (R95). -/
theorem waitCount_take_shiftSeq (src : ByteSource) (n : Nat) : waitCount ((shiftSeq src).take n) = min n 64 / 2 := by
  rcases Nat.lt_or_ge n 64 with hlt | hge
  · have hbit := waitCount_take_flatMap (bitSeq_length src) (waitCount_take_bitSeq src) (l := List.finRange 8)
      (q := n / 8) (n := n % 8) (by simp; omega) (by omega)
    rw [Nat.div_add_mod] at hbit
    rw [shiftSeq, hbit, show min 8 8 / 2 = 4 from rfl]
    omega
  · rw [List.take_of_length_le (by simpa using hge), waitCount_shiftSeq, Nat.min_eq_right hge]

/-- A row's first three micro-ops and its last three: a WAIT before and after the write of LATCH (R108). -/
theorem waitCount_take_latch (v : Bit) (n : Nat) :
    waitCount ([.wait, .pin .latch v, .wait].take n) = (min n 3 + 1) / 2 := by
  simp only [waitCount_take_cons, reduceCtorEq, if_false, if_true, List.take_nil, waitCount_nil]
  omega

/-- How many of the first n micro-ops of a row are WAITs: those of its start, of the byte of the row select, of the byte
of the columns and of its end (R108). -/
def rowWaits (n : Nat) : Nat :=
  (min n 3 + 1) / 2 + min (n - 3) 64 / 2 + min (n - 68) 64 / 2 + (min (n - 132) 3 + 1) / 2

theorem waitCount_take_rowSeq (j n : Nat) : waitCount ((rowSeq j).take n) = rowWaits n := by
  have hread (k : Nat) : waitCount ([MicroOp.readRow j].take k) = 0 := by simp [waitCount_take_cons, waitCount_nil]
  simp only [rowSeq, waitCount_take_append, waitCount_take_shiftSeq, waitCount_take_latch, hread, rowWaits,
    List.length_append, shiftSeq_length, List.length_cons, List.length_nil, Nat.reduceAdd, Nat.add_zero]

theorem waitsBetween_rowSeq (j : Nat) {a b : Nat} (h : a < b) :
    waitsBetween (rowSeq j) a b = rowWaits b - rowWaits (a + 1) := by
  simp only [waitsBetween_eq_sub _ h, waitCount_take_rowSeq]

/-- Within the byte of the row select, from entry 3, and that of the columns, from entry 68, every second micro-op is a
WAIT (R94, R108). -/
theorem waitsBetween_rowSeq_byte (j : Nat) {base a b : Nat} (hbase : base = 3 ∨ base = 68) (h : a < b)
    (hb : b ≤ 64) : waitsBetween (rowSeq j) (base + a) (base + b) = b / 2 - (a + 1) / 2 := by
  have hbyte {n : Nat} (hn : n ≤ 64) : rowWaits (base + n) = rowWaits base + n / 2 := by
    rcases hbase with rfl | rfl <;> simp only [rowWaits] <;> omega
  rw [waitsBetween_rowSeq j (by omega), Nat.add_assoc, hbyte hb, hbyte (by omega), Nat.add_sub_add_left]

/-- From the latch of a row to the end of the row, and in the next row up to its first PIN, one WAIT each (R108). -/
theorem waitsBetween_frameSeq_latch {r : Nat} (hr : r < 7) :
    waitsBetween frameSeq (135 * r + 133) (135 * (r + 1) + 1) = 2 := by
  have hwaits {q n : Nat} (hq : q < 8) (hn : n ≤ 135) :
      waitCount (frameSeq.take (135 * q + n)) = rowWaits 135 * q + rowWaits n :=
    waitCount_take_flatMap rowSeq_length waitCount_take_rowSeq (by simpa using hq) hn
  rw [waitsBetween_eq_sub _ (by omega), Nat.add_assoc _ 133, hwaits (by omega) (by decide),
    hwaits (by omega) (by decide), show rowWaits 135 = 68 from rfl, show rowWaits 1 = 1 from rfl,
    show rowWaits (133 + 1) = 67 from rfl]
  omega

/-! ### A WAIT after every PIN -/

/-- Every micro-op of the list that drives a line has a WAIT right after it. -/
def WaitAfterPin (ops : List MicroOp) : Prop :=
  ∀ a, (ops[a]?.any MicroOp.writesLine) = true → ops[a + 1]? = some .wait

theorem WaitAfterPin.nil : WaitAfterPin [] := fun _ h => by simp at h

theorem WaitAfterPin.cons {op : MicroOp} {ops : List MicroOp} (hop : MicroOp.writesLine op = false)
    (h : WaitAfterPin ops) : WaitAfterPin (op :: ops)
  | 0, hw => by simp [hop] at hw
  | a + 1, hw => h a (by simpa using hw)

theorem WaitAfterPin.cons_wait {ops : List MicroOp} (op : MicroOp) (h : WaitAfterPin ops) :
    WaitAfterPin (op :: .wait :: ops)
  | 0, _ => rfl
  | a + 1, hw => h.cons (op := .wait) rfl a (by simpa using hw)

theorem WaitAfterPin.append {ops more : List MicroOp} (h : WaitAfterPin ops) (hm : WaitAfterPin more) :
    WaitAfterPin (ops ++ more) := by
  intro a hw
  rcases Nat.lt_or_ge a ops.length with hlt | hge
  · rw [List.getElem?_append_left hlt] at hw
    have hnext := h a hw
    rwa [List.getElem?_append_left (List.getElem?_eq_some_iff.1 hnext).1]
  · rw [List.getElem?_append_right hge] at hw
    rw [List.getElem?_append_right (by omega), Nat.sub_add_comm hge]
    exact hm _ hw

theorem waitAfterPin_bitSeq (src : ByteSource) (i : Fin 8) : WaitAfterPin (bitSeq src i) :=
  (((WaitAfterPin.nil.cons_wait _).cons_wait _).cons_wait _).cons_wait _

theorem waitAfterPin_shiftSeq (src : ByteSource) : WaitAfterPin (shiftSeq src) := by
  rw [shiftSeq]
  induction List.finRange 8 with
  | nil => exact .nil
  | cons i l ih => exact (waitAfterPin_bitSeq src i).append ih

theorem waitAfterPin_rowSeq (j : Nat) : WaitAfterPin (rowSeq j) :=
  have hlatch (v : Bit) : WaitAfterPin [.wait, .pin .latch v, .wait] := (WaitAfterPin.nil.cons_wait _).cons rfl
  ((((hlatch false).append (waitAfterPin_shiftSeq _)).append (.cons rfl .nil)).append (waitAfterPin_shiftSeq _)).append
    (hlatch true)

/-- So between two micro-ops that drive a line there is at least one WAIT, the one after the first. -/
theorem WaitAfterPin.one_le_waitsBetween {ops : List MicroOp} (h : WaitAfterPin ops) {a b : Nat} (hab : a < b)
    (ha : (ops[a]?.any MicroOp.writesLine) = true) (hb : (ops[b]?.any MicroOp.writesLine) = true) :
    1 ≤ waitsBetween ops a b := by
  have hwait : ops[a + 1]? = some .wait := h a ha
  have hne : a + 1 ≠ b := by
    rintro rfl
    simp [hwait, MicroOp.writesLine] at hb
  have hfirst : ((ops.take b).drop (a + 1))[0]? = some .wait := by
    rw [List.getElem?_drop, List.getElem?_take_of_lt (by omega), Nat.add_zero, hwait]
  exact List.count_pos_iff.2 (List.mem_of_getElem? hfirst)

/-! ### The separations -/

/-- Settles O56: within a row a separation is a difference of `rowWaits`; the step to the next row is the frame's, and
the least separation is the WAIT after every PIN. -/
theorem separationsHoldDelays : Obligations.SeparationsHoldDelays := by
  intro j
  refine ⟨fun k hk base hbase => ?bits, ?_, ?_, ?_, ?_, ?_, fun r hr => waitsBetween_frameSeq_latch hr,
    fun a b hab => (waitAfterPin_rowSeq j).one_le_waitsBetween hab⟩
  case bits =>
    simp only [Nat.add_assoc base]
    refine ⟨?_, ?_, ?_, fun hlast => ⟨?_, ?_⟩⟩ <;>
      rw [waitsBetween_rowSeq_byte j hbase (by omega) (by omega)] <;> omega
  all_goals
    rw [waitsBetween_rowSeq j (by decide)]
    rfl

end Sys2Proof.Machine
end
